-- ==== Sys2Proof/Word.lean ====
section
/-! DEFINITION. The word types of the hardware (00_scope.md R5, R6, R7): every value is an unsigned bit vector, bit 0 the least significant. -/

namespace Sys2Proof

/-- A byte: the width of a general register, a memory cell, the key latch and a random draw (R5). -/
abbrev Byte := BitVec 8

/-- A 16-bit value: an instruction word, `I`, `PC`, a stack entry (R5, 92_eei_decisions.md D1 and D2). -/
abbrev Word := BitVec 16

/-- A 4-bit field of an instruction word. -/
abbrev Nibble := BitVec 4

/-- The 12-bit `address` field (30_encoding.md R51). -/
abbrev Addr12 := BitVec 12

/-- The index of a general register, 0 to 15; every 4-bit index is valid (10_state.md R10). -/
abbrev RegIx := Fin 16

end Sys2Proof
end

