-- ==== Sys2Proof/Config.lean ====
section
/-! DEFINITION. The parameters of the hardware (00_scope.md R5) and the one free value of the model. -/

namespace Sys2Proof.Config

/-- MEM_SIZE: bytes of memory, addresses 0x000 to 0xFFF (00_scope.md R5, 20_memory.md R30). -/
def memSize : Nat := 4096

/-- LOAD_BASE: where the image goes and where `PC` starts (00_scope.md R5). -/
def loadBase : Nat := 0x200

/-- MAX_IMAGE: the longest program image, `4096 - 0x200` (00_scope.md R5, the spec's decision D4). -/
def maxImage : Nat := memSize - loadBase

/-- STACK_DEPTH (00_scope.md R5, 10_state.md R16). -/
def stackDepth : Nat := 16

/-- What a byte of memory outside the program image holds: 0x00 (10_state.md R25, the spec's decision D3; log entry 6). -/
def blankByte : Byte := 0x00#8

/-- FREE VALUE (10_state.md R22, 45_register_ops.md R163). DESIGN CHOICE, log entry 1.
The byte the Random Byte Source answers to the `n`-th draw when the host has put no answer of its own on the port.
It has no body: nothing can be proved about any of its values. -/
opaque randomByte : Nat → Byte

end Sys2Proof.Config
end

