-- ==== Sys2Proof/Syntax.lean ====
section
/-! DEFINITION. The abstract syntax: one constructor per row of spec/opcode_table.json, in its order (30_encoding.md R55). -/

namespace Sys2Proof

/-- The 17 instructions (30_encoding.md R55). Operands are the fields the row's rule uses (R53); the ignored low nibble of
SE_REG and SNE_REG is no operand (R57; log entry 11). -/
inductive Instr where
  /-- HALT, 41_system.md R90. -/
  | halt
  /-- CLS, 42_display.md R101. -/
  | cls
  /-- RET, 43_control_flow.md R123. -/
  | ret
  /-- JP nnn, 43_control_flow.md R124. -/
  | jp (address : Addr12)
  /-- CALL nnn, 43_control_flow.md R125. -/
  | call (address : Addr12)
  /-- SE Vx, kk, 44_skips.md R141. -/
  | seImm (regX : RegIx) (immediate : Byte)
  /-- SNE Vx, kk, 44_skips.md R142. -/
  | sneImm (regX : RegIx) (immediate : Byte)
  /-- SE Vx, Vy, 44_skips.md R143. -/
  | seReg (regX regY : RegIx)
  /-- LD Vx, kk, 45_register_ops.md R160. -/
  | ldImm (regX : RegIx) (immediate : Byte)
  /-- ADD Vx, kk, 45_register_ops.md R161. -/
  | addImm (regX : RegIx) (immediate : Byte)
  /-- SNE Vx, Vy, 44_skips.md R144. -/
  | sneReg (regX regY : RegIx)
  /-- LD I, nnn, 45_register_ops.md R162. -/
  | ldI (address : Addr12)
  /-- JP V0, nnn, 43_control_flow.md R126. -/
  | jpV0 (address : Addr12)
  /-- RND Vx, kk, 45_register_ops.md R163. -/
  | rnd (regX : RegIx) (immediate : Byte)
  /-- DRW Vx, Vy, n, 42_display.md R102. -/
  | drw (regX regY : RegIx) (subop : Nibble)
  /-- SKP Vx, 44_skips.md R145. -/
  | skp (regX : RegIx)
  /-- SKNP Vx, 44_skips.md R146. -/
  | sknp (regX : RegIx)
deriving DecidableEq, Repr

/-- The mnemonic of an instruction as spec/opcode_table.json spells it (30_encoding.md R55, R61). -/
def Instr.mnemonic : Instr → String
  | .halt => "HALT"
  | .cls => "CLS"
  | .ret => "RET"
  | .jp _ => "JP"
  | .call _ => "CALL"
  | .seImm _ _ => "SE_IMM"
  | .sneImm _ _ => "SNE_IMM"
  | .seReg _ _ => "SE_REG"
  | .ldImm _ _ => "LD_IMM"
  | .addImm _ _ => "ADD_IMM"
  | .sneReg _ _ => "SNE_REG"
  | .ldI _ => "LD_I"
  | .jpV0 _ => "JP_V0"
  | .rnd _ _ => "RND"
  | .drw _ _ _ => "DRW"
  | .skp _ => "SKP"
  | .sknp _ => "SKNP"

end Sys2Proof
end

