-- ==== Sys2Proof/WellFormed.lean ====
section
/-! DEFINITION. What a well-formed instruction and a well-formed program image are. The operand types of `Instr` already carry the
ranges of 40_decode_dispatch.md R72(c), so the check of an instruction passes for every term (Laws/Decode.lean proves it); the check
of an image can fail (70_reset_and_hazards.md R212). -/

namespace Sys2Proof

/-- Each operand of an instruction with the number of values its field has (30_encoding.md R51). -/
def Instr.operands : Instr → List (Nat × Nat)
  | .halt => []
  | .cls => []
  | .ret => []
  | .jp a => [(a.toNat, 4096)]
  | .call a => [(a.toNat, 4096)]
  | .seImm x k => [(x.val, 16), (k.toNat, 256)]
  | .sneImm x k => [(x.val, 16), (k.toNat, 256)]
  | .seReg x y => [(x.val, 16), (y.val, 16)]
  | .ldImm x k => [(x.val, 16), (k.toNat, 256)]
  | .addImm x k => [(x.val, 16), (k.toNat, 256)]
  | .sneReg x y => [(x.val, 16), (y.val, 16)]
  | .ldI a => [(a.toNat, 4096)]
  | .jpV0 a => [(a.toNat, 4096)]
  | .rnd x k => [(x.val, 16), (k.toNat, 256)]
  | .drw x y n => [(x.val, 16), (y.val, 16), (n.toNat, 16)]
  | .skp x => [(x.val, 16)]
  | .sknp x => [(x.val, 16)]

/-- Every value lies below its bound. -/
def operandsFit (ops : List (Nat × Nat)) : Bool :=
  ops.all fun p => decide (p.1 < p.2)

/-- Every operand fits its field (40_decode_dispatch.md R72(c)). -/
def Instr.WellFormed (i : Instr) : Bool :=
  operandsFit i.operands

/-- A program image that construction accepts: 0 to 3584 bytes (70_reset_and_hazards.md R212). -/
def imageFits (image : List Byte) : Bool :=
  decide (image.length ≤ Config.maxImage)

end Sys2Proof
end

