-- ==== Sys2Proof/Decode.lean ====
section
/-! DEFINITION. The Instruction Decoder, the dispatch order, the encoder and the opcode table
(30_encoding.md R50 to R58, 40_decode_dispatch.md R70 to R72 and R77). -/

namespace Sys2Proof

/-! ## Bytes and words (30_encoding.md R50) -/

/-- The 16-bit big-endian word of two bytes, the first at the lower address (20_memory.md R33). -/
def wordOfBytes (hi lo : Byte) : Word :=
  hi ++ lo

/-- The byte at the lower address, `W[15:8]`. -/
def hiByte (w : Word) : Byte :=
  w.extractLsb' 8 8

/-- The byte at the next address, `W[7:0]`. -/
def loByte (w : Word) : Byte :=
  w.extractLsb' 0 8

/-- A word as memory holds it, lowest address first. -/
def bytesOfWord (w : Word) : List Byte :=
  [hiByte w, loByte w]

/-! ## The bit-field extractor -/

/-- The decoder's outputs (40_decode_dispatch.md R71) and the high nibble `op` the dispatcher adds (30_encoding.md R51). -/
structure Fields where
  op : Nibble
  address : Addr12
  immediate : Byte
  regX : RegIx
  regY : RegIx
  subop : Nibble
deriving DecidableEq, Repr

/-- `Decode(W)` of 40_decode_dispatch.md R71, for every word. -/
def fieldsOf (w : Word) : Fields where
  op := w.extractLsb' 12 4
  address := w.extractLsb' 0 12
  immediate := w.extractLsb' 0 8
  regX := (w.extractLsb' 8 4).toFin
  regY := (w.extractLsb' 4 4).toFin
  subop := w.extractLsb' 0 4

/-! ## Dispatch -/

/-- Why bytes are no instruction. -/
inductive DecodeError where
  /-- No row of the table selects the word (30_encoding.md R58); the step that fetched it raises UnknownOpcode. -/
  | unknownOpcode (w : Word)
  /-- Fewer than two bytes were given. A step never meets this: the fetch delivers both bytes or raises. -/
  | truncated
deriving DecidableEq, Repr

/-- Dispatch in the order of 40_decode_dispatch.md R77. -/
def decodeWord (w : Word) : Except DecodeError Instr :=
  let f := fieldsOf w
  if w = 0x0000#16 then .ok .halt
  else if w = 0x00E0#16 then .ok .cls
  else if w = 0x00EE#16 then .ok .ret
  else if f.op = 0x1#4 then .ok (.jp f.address)
  else if f.op = 0x2#4 then .ok (.call f.address)
  else if f.op = 0x3#4 then .ok (.seImm f.regX f.immediate)
  else if f.op = 0x4#4 then .ok (.sneImm f.regX f.immediate)
  else if f.op = 0x5#4 then .ok (.seReg f.regX f.regY)
  else if f.op = 0x6#4 then .ok (.ldImm f.regX f.immediate)
  else if f.op = 0x7#4 then .ok (.addImm f.regX f.immediate)
  else if f.op = 0x9#4 then .ok (.sneReg f.regX f.regY)
  else if f.op = 0xA#4 then .ok (.ldI f.address)
  else if f.op = 0xB#4 then .ok (.jpV0 f.address)
  else if f.op = 0xC#4 then .ok (.rnd f.regX f.immediate)
  else if f.op = 0xD#4 then .ok (.drw f.regX f.regY f.subop)
  else if f.op = 0xE#4 ∧ f.immediate = 0x9E#8 then .ok (.skp f.regX)
  else if f.op = 0xE#4 ∧ f.immediate = 0xA1#8 then .ok (.sknp f.regX)
  else .error (.unknownOpcode w)

/-- The decoder on any list of bytes: an instruction with the bytes after it, or a rejection by name.
Every instruction is two bytes (30_encoding.md R50, R60). -/
def decode : List Byte → Except DecodeError (Instr × List Byte)
  | hi :: lo :: rest =>
    match decodeWord (wordOfBytes hi lo) with
    | .ok i => .ok (i, rest)
    | .error e => .error e
  | _ => .error .truncated

/-! ## The encoder (30_encoding.md R55, R61) -/

/-- A register index as the nibble of its field. -/
def regNibble (r : RegIx) : Nibble :=
  BitVec.ofFin r

/-- `op` and `address` (30_encoding.md R51). -/
def encAddr (op : Nibble) (a : Addr12) : Word :=
  op ++ a

/-- `op`, `regX` and `immediate` (30_encoding.md R51). -/
def encRegImm (op : Nibble) (x : RegIx) (k : Byte) : Word :=
  op ++ (regNibble x ++ k : Addr12)

/-- `op`, `regX`, `regY` and `subop` (30_encoding.md R51). -/
def encRegReg (op : Nibble) (x y : RegIx) (n : Nibble) : Word :=
  op ++ (regNibble x ++ (regNibble y ++ n : Byte) : Addr12)

/-- The word of an instruction (30_encoding.md R55); the ignored low nibble of SE_REG and SNE_REG is written 0 (R61). -/
def encode : Instr → Word
  | .halt => 0x0000#16
  | .cls => 0x00E0#16
  | .ret => 0x00EE#16
  | .jp a => encAddr 0x1#4 a
  | .call a => encAddr 0x2#4 a
  | .seImm x k => encRegImm 0x3#4 x k
  | .sneImm x k => encRegImm 0x4#4 x k
  | .seReg x y => encRegReg 0x5#4 x y 0x0#4
  | .ldImm x k => encRegImm 0x6#4 x k
  | .addImm x k => encRegImm 0x7#4 x k
  | .sneReg x y => encRegReg 0x9#4 x y 0x0#4
  | .ldI a => encAddr 0xA#4 a
  | .jpV0 a => encAddr 0xB#4 a
  | .rnd x k => encRegImm 0xC#4 x k
  | .drw x y n => encRegReg 0xD#4 x y n
  | .skp x => encRegImm 0xE#4 x 0x9E#8
  | .sknp x => encRegImm 0xE#4 x 0xA1#8

/-! ## The opcode table (30_encoding.md R54, R55) -/

/-- A row of 30_encoding.md R55. -/
structure OpcodeRow where
  mnemonic : String
  mask : Word
  pattern : Word
deriving DecidableEq, Repr

/-- `W & mask == match` (30_encoding.md R54). -/
def OpcodeRow.selects (r : OpcodeRow) (w : Word) : Bool :=
  w &&& r.mask == r.pattern

/-- The 17 rows of 30_encoding.md R55, in its order. -/
def opcodeTable : List OpcodeRow :=
  [⟨"HALT", 0xFFFF#16, 0x0000#16⟩, ⟨"CLS", 0xFFFF#16, 0x00E0#16⟩, ⟨"RET", 0xFFFF#16, 0x00EE#16⟩,
   ⟨"JP", 0xF000#16, 0x1000#16⟩, ⟨"CALL", 0xF000#16, 0x2000#16⟩] ++
  [⟨"SE_IMM", 0xF000#16, 0x3000#16⟩, ⟨"SNE_IMM", 0xF000#16, 0x4000#16⟩, ⟨"SE_REG", 0xF000#16, 0x5000#16⟩,
   ⟨"LD_IMM", 0xF000#16, 0x6000#16⟩, ⟨"ADD_IMM", 0xF000#16, 0x7000#16⟩, ⟨"SNE_REG", 0xF000#16, 0x9000#16⟩] ++
  [⟨"LD_I", 0xF000#16, 0xA000#16⟩, ⟨"JP_V0", 0xF000#16, 0xB000#16⟩, ⟨"RND", 0xF000#16, 0xC000#16⟩,
   ⟨"DRW", 0xF000#16, 0xD000#16⟩, ⟨"SKP", 0xF0FF#16, 0xE09E#16⟩, ⟨"SKNP", 0xF0FF#16, 0xE0A1#16⟩]

/-! ## The host's question about one word -/

/-- The instruction word whose bits are `w`, every bit from `nbits` up taken as 0. An instruction has one 16-bit word, so the table's
numbering of its bits is the word's own (30_encoding.md R50, 00_scope.md R6). -/
def tableWord (nbits w : Nat) : Word :=
  BitVec.ofNat 16 (w % 2 ^ nbits)

/-- What the decoder reads from the bytes of that word as memory holds them. -/
def decodeTableWord (nbits w : Nat) : Option Instr :=
  match decode (bytesOfWord (tableWord nbits w)) with
  | .ok (i, _) => some i
  | .error _ => none

end Sys2Proof
end

