-- ==== Sys2Proof/Machine/Memory.lean ====
section
/-! DEFINITION. The memory array: 4096 bytes, held as the list of those that are not 0x00 (10_state.md R19, 20_memory.md R30 to R33). -/

namespace Sys2Proof.Machine

/-- Memory as (address, byte) pairs in one canonical form (`Memory.wf`): addresses strictly rising, below 4096, and no byte equal to
what an unlisted address reads as. -/
abbrev Memory := List Host.Cell

/-- The byte at an address; an unlisted address reads as 0x00 (10_state.md R25, log entry 6). This is the array itself, with no
bound check: `read1` and `read2` make it. -/
def Memory.byteAt : Memory → Nat → Byte
  | [], _ => Config.blankByte
  | (b, v) :: m, a => if b = a then v else Memory.byteAt m a

/-- Writing one byte. Only construction writes memory (20_memory.md R36). Writing 0x00 removes the entry. -/
def Memory.write : Memory → Nat → Byte → Memory
  | [], a, v => if v = Config.blankByte then [] else [(a, v)]
  | (b, u) :: m, a, v =>
    if b < a then (b, u) :: Memory.write m a v
    else if b = a then (if v = Config.blankByte then m else (a, v) :: m)
    else if v = Config.blankByte then (b, u) :: m
    else (a, v) :: (b, u) :: m

/-- The canonical form from address `lo` up. -/
def Memory.wfFrom (lo : Nat) : Memory → Bool
  | [] => true
  | (b, v) :: m => decide (lo ≤ b) && decide (b < Config.memSize) && decide (v ≠ Config.blankByte) && Memory.wfFrom (b + 1) m

/-- The canonical form. -/
def Memory.wf (m : Memory) : Bool :=
  Memory.wfFrom 0 m

/-- Copying bytes to consecutive addresses (70_reset_and_hazards.md R211). -/
def Memory.load (m : Memory) (a : Nat) : List Byte → Memory
  | [] => m
  | b :: bs => Memory.load (m.write a b) (a + 1) bs

/-- `MemRead(addr, 1)` (20_memory.md R32): the byte, or the out-of-range address. The address is exact, never reduced (R37). -/
def Memory.read1 (m : Memory) (a : Nat) : Except Nat Byte :=
  if a < Config.memSize then .ok (m.byteAt a) else .error a

/-- The bytes at `a`, `a + 1`, ... in order, each by `MemRead(addr, 1)`: all of them, or the lowest out-of-range address among
them (42_display.md R103). -/
def Memory.readBytes (m : Memory) (a : Nat) : Nat → Except Nat (List Byte)
  | 0 => .ok []
  | n + 1 =>
    match m.read1 a with
    | .error e => .error e
    | .ok b =>
      match Memory.readBytes m (a + 1) n with
      | .error e => .error e
      | .ok bs => .ok (b :: bs)

/-- `MemRead(addr, 2)` (20_memory.md R33): the big-endian word, or the lowest out-of-range address the access touches. -/
def Memory.read2 (m : Memory) (a : Nat) : Except Nat Word :=
  if Config.memSize ≤ a then .error a
  else if Config.memSize ≤ a + 1 then .error (a + 1)
  else .ok (wordOfBytes (m.byteAt a) (m.byteAt (a + 1)))

end Sys2Proof.Machine
end

