-- ==== Sys2Proof/Machine/State.lean ====
section
/-! DEFINITION. The Machine State (10_state.md section 1), the reasons a step stops, and the state after reset (10_state.md R25). -/

namespace Sys2Proof.Machine

/-- The display buffer: 32 rows of 64 one-bit pixels, `disp[row][col]` (10_state.md R17). -/
abbrev Display := Vector (Vector Bool 64) 32

/-- All 2048 pixels off. -/
def Display.blank : Display :=
  Vector.replicate 32 (Vector.replicate 64 false)

/-- The Machine State. The last two fields are the model's own (log entry 1); all others are the spec's. -/
structure State where
  /-- `V[0]` to `V[15]`; `V[15]` is VF, the collision flag (10_state.md R10, R12). -/
  v : Vector Byte 16
  /-- `I`, the index register (10_state.md R13). -/
  index : Word
  /-- `PC` (10_state.md R14). -/
  pc : Word
  /-- The call stack, the top LAST, as the spec writes it (10_state.md R16). -/
  stack : List Word
  /-- The display buffer (10_state.md R17). -/
  disp : Display
  /-- `KEY`, the key-pressed latch, written by the host only (10_state.md R18). -/
  key : Byte
  /-- The memory array (10_state.md R19). -/
  mem : Memory
  /-- The MODEL's own: bytes the host has put on the `rnd_in` port and no RND has taken yet, the next one first
  (70_reset_and_hazards.md R218). DESIGN CHOICE, log entry 1. -/
  rndIn : List Byte
  /-- The MODEL's own: how many bytes RND has drawn; it indexes the free value `Config.randomByte`. DESIGN CHOICE, log entry 1. -/
  draws : Nat
deriving DecidableEq, Repr

/-- The four fatal conditions with what each records (60_exceptions.md R181 to R185). A step that stops with one writes nothing
(R186). All are the spec's own faults. -/
inductive Fault where
  /-- Raised by the dispatcher for a word no row selects (R181). Safe: the spec's own condition. -/
  | unknownOpcode (pc instr : Word)
  /-- Raised by CALL on a full stack (R182). Safe: the spec's own condition. -/
  | stackOverflow (pc instr : Word)
  /-- Raised by RET on an empty stack (R183). Safe: the spec's own condition. -/
  | stackUnderflow (pc instr : Word)
  /-- Raised by the fetch when `pc` or `pc + 1` is 4096 or more; no instruction word (R184(a)). Safe: the spec's own condition. -/
  | outOfBoundsFetch (pc addr : Word)
  /-- Raised by DRW when a sprite byte lies at 4096 or more (R184(b)). Safe: the spec's own condition; for clipped rows see log entry 9. -/
  | outOfBoundsSprite (pc instr addr : Word)
deriving DecidableEq, Repr

/-- Why the model gives an instruction no meaning. -/
inductive Refusal where
  /-- Raised by `exec` for an instruction that has no meaning yet. Safe. No instruction of this model raises it. -/
  | notModelled (mnemonic : String)
deriving DecidableEq, Repr

/-- The fault record `(cause, pc, instr, addr)`; `none` is "absent" (60_exceptions.md R185). -/
structure FatalRecord where
  cause : Nat
  pc : Word
  instr : Option Word
  addr : Option Word
deriving DecidableEq, Repr

/-- What the step operation answers to the host (10_state.md R21, 40_decode_dispatch.md R79). -/
inductive StepResult where
  /-- `Continue`. -/
  | continues
  /-- `Halted`. -/
  | halted
  /-- `Fatal(cause, pc, instr, addr)`. -/
  | fatal (r : FatalRecord)
  /-- The model's own: `exec` refused. No state makes a step answer this (the statement StepNeverRefuses says so). -/
  | refused (r : Refusal)
deriving DecidableEq, Repr

/-- The machine right after reset: every value is the one 10_state.md R25 lists, with an empty image. -/
def State.reset : State where
  v := Vector.replicate 16 0x00#8
  index := 0x0000#16
  pc := 0x0200#16
  stack := []
  disp := Display.blank
  key := 0x00#8
  mem := []
  rndIn := []
  draws := 0

end Sys2Proof.Machine
end

