-- ==== Sys2Proof/Machine/Ops.lean ====
section
/-! DEFINITION. The shared operations of the machine: raising a fatal condition, the fetch, the program counter's advance, the call
stack, the random draw. -/

namespace Sys2Proof.Machine

/-- What a step or a meaning answers. -/
abbrev Result := Host.Outcome State Fault Refusal

/-- TAKING AN EXCEPTION. A fatal condition ends the step (60_exceptions.md R180): nothing is saved, no mode changes, no vector is
entered, and there is no return (R189, R190); the state of the step's beginning stands (R186). -/
def raise (f : Fault) : Result :=
  .fault f

/-- The record of a fatal condition (60_exceptions.md R185). -/
def Fault.record : Fault → FatalRecord
  | .unknownOpcode pc w => ⟨1, pc, some w, none⟩
  | .stackOverflow pc w => ⟨2, pc, some w, none⟩
  | .stackUnderflow pc w => ⟨3, pc, some w, none⟩
  | .outOfBoundsFetch pc a => ⟨4, pc, none, some a⟩
  | .outOfBoundsSprite pc w a => ⟨4, pc, some w, some a⟩

/-- The fetch: `W <- MemRead(pc, 2)` (40_decode_dispatch.md R76, 20_memory.md R33). -/
def State.fetch (s : State) : Except Fault Word :=
  match s.mem.read2 s.pc.toNat with
  | .ok w => .ok w
  | .error a => .error (.outOfBoundsFetch s.pc (BitVec.ofNat 16 a))

/-- `pc <- (pc + 2) mod 65536`, the auto-advance (10_state.md R15, 40_decode_dispatch.md R78). -/
def State.advance (s : State) : State :=
  { s with pc := s.pc + 2#16 }

/-- A redirect: `pc <- target` (40_decode_dispatch.md R78). -/
def State.jump (s : State) (target : Word) : State :=
  { s with pc := target }

/-- `Push(v)` (43_control_flow.md R120): `none` is StackOverflow. The spec's stack never holds more than 16 entries; on a longer
list, which is no state of the machine, the push is refused too (log entry 13). -/
def State.push (s : State) (v : Word) : Option State :=
  if Config.stackDepth ≤ s.stack.length then none
  else some { s with stack := s.stack ++ [v] }

/-- `Pop()` (43_control_flow.md R121): the last entry and the state without it; `none` is StackUnderflow. -/
def State.pop (s : State) : Option (Word × State) :=
  match s.stack.getLast? with
  | none => none
  | some v => some (v, { s with stack := s.stack.dropLast })

/-- `RandomByte()` (10_state.md R22, 45_register_ops.md R163): exactly one draw. The byte is the next answer the host has put on the
port, or the free value (log entry 1). -/
def State.drawByte (s : State) : Byte × State :=
  match s.rndIn with
  | b :: rest => (b, { s with rndIn := rest, draws := s.draws + 1 })
  | [] => (Config.randomByte s.draws, { s with draws := s.draws + 1 })

end Sys2Proof.Machine
end

