-- ==== Sys2Proof/Machine/Operands.lean ====
section
/-! DEFINITION. The operand forms: a general register, an immediate, an address, the index register, the sampled key latch
(30_encoding.md R53). An 8-bit immediate needs no form of its own: it is used as it is. -/

namespace Sys2Proof.Machine

/-- A read of `V[r]` (10_state.md R10). -/
def State.reg (s : State) (r : RegIx) : Byte :=
  s.v[r]

/-- `V[r] <- b` (10_state.md R10). -/
def State.setReg (s : State) (r : RegIx) (b : Byte) : State :=
  { s with v := s.v.set r b }

/-- `I <- w` (10_state.md R13). -/
def State.setIndex (s : State) (w : Word) : State :=
  { s with index := w }

/-- `zext_16(address)` (30_encoding.md R53, 00_scope.md R7). -/
def zextAddr (a : Addr12) : Word :=
  a.setWidth 16

/-- `zext_16(b)` (00_scope.md R7). -/
def zextByte (b : Byte) : Word :=
  b.setWidth 16

/-- The key latch as sampled at the start of the step (40_decode_dispatch.md R75): no step writes it (R81), so the sample is the
latch itself. -/
def State.sampledKey (s : State) : Byte :=
  s.key

end Sys2Proof.Machine
end

