-- ==== Sys2Proof/Machine/Flags.lean ====
section
/-! DEFINITION. The one flag of the hardware, the collision flag, held in VF (10_state.md R12, 42_display.md R105). -/

namespace Sys2Proof.Machine

/-- The index of VF, `V[15]` (10_state.md R12). -/
def vf : RegIx :=
  15

/-- The collision of one XOR: the pixel was on and is computed off (42_display.md R105). -/
def collides (old new : Bool) : Bool :=
  old && !new

/-- VF after a draw: exactly 1 or 0 (10_state.md R12, 42_display.md R105). -/
def flagByte (hit : Bool) : Byte :=
  if hit then 0x01#8 else 0x00#8

end Sys2Proof.Machine
end

