-- ==== Sys2Proof/Machine/Control.lean ====
section
/-! DEFINITION. The control transfers RET, JP, CALL and JP_V0 (43_control_flow.md). -/

namespace Sys2Proof.Machine

/-- RET (43_control_flow.md R123): the popped entry is the CALL's own address, and the auto-advance adds the 2. -/
def execRet (s : State) : Result :=
  match s.pop with
  | none => raise (.stackUnderflow s.pc (encode .ret))
  | some (v, t) => .next (t.jump v).advance

/-- JP (43_control_flow.md R124). -/
def execJp (address : Addr12) (s : State) : Result :=
  .next (s.jump (zextAddr address))

/-- CALL (43_control_flow.md R125): it pushes its own address. -/
def execCall (address : Addr12) (s : State) : Result :=
  match s.push s.pc with
  | none => raise (.stackOverflow s.pc (encode (.call address)))
  | some t => .next (t.jump (zextAddr address))

/-- JP_V0 (43_control_flow.md R126): the sum is at most 0x10FE, so it is exact in 16 bits. -/
def execJpV0 (address : Addr12) (s : State) : Result :=
  .next (s.jump (zextAddr address + zextByte (s.reg 0)))

end Sys2Proof.Machine
end

