-- ==== Sys2Proof/Machine/Display.lean ====
section
/-! DEFINITION. The Display Buffer's two operations and the instructions CLS and DRW (42_display.md). -/

namespace Sys2Proof.Machine

/-- One pixel of a draw, as 42_display.md R102 writes it: outside the buffer it is dropped, neither read nor written and no collision
(R104, R105); inside it is XORed with the sprite bit, and a collision is remembered. -/
def xorPixel (bit : Bool) (row col : Nat) (acc : Display × Bool) : Display × Bool :=
  if h : row < 32 ∧ col < 64 then
    let old := (acc.1[row]'h.1)[col]'h.2
    let new := old ^^ bit
    (acc.1.set row ((acc.1[row]'h.1).set col new h.2) h.1, acc.2 || collides old new)
  else acc

/-- One sprite row: eight bits, the most significant at the lowest column (42_display.md R102). -/
def drawRow (b : Byte) (x row : Nat) (acc : Display × Bool) : Display × Bool :=
  (List.range 8).foldl (fun a c => xorPixel (b.getLsbD (7 - c)) row (x + c) a) acc

/-- `draw(x, y, height)` with the sprite's bytes, the top row first (42_display.md R102): the display after, and whether any pixel
collided. All sums are exact (R104). -/
def drawSprite (x y : Nat) : List Byte → Display × Bool → Display × Bool
  | [], acc => acc
  | b :: bs, acc => drawSprite x (y + 1) bs (drawRow b x y acc)

/-- CLS (42_display.md R101). -/
def execCls (s : State) : Result :=
  .next { s with disp := Display.blank }.advance

/-- DRW (42_display.md R102 to R106): the coordinates are read before VF is written (R106(a)), and every sprite byte is read, hence
checked, before anything is written (R103). -/
def execDrw (regX regY : RegIx) (subop : Nibble) (s : State) : Result :=
  let x := (s.reg regX).toNat
  let y := (s.reg regY).toNat
  match s.mem.readBytes s.index.toNat subop.toNat with
  | .error a => raise (.outOfBoundsSprite s.pc (encode (.drw regX regY subop)) (BitVec.ofNat 16 a))
  | .ok sprite =>
    let drawn := drawSprite x y sprite (s.disp, false)
    .next ({ s with disp := drawn.1 }.setReg vf (flagByte drawn.2)).advance

end Sys2Proof.Machine
end

