-- ==== Sys2Proof/Machine/RegisterOps.lean ====
section
/-! DEFINITION. The register instructions LD_IMM, ADD_IMM, LD_I and RND (45_register_ops.md). -/

namespace Sys2Proof.Machine

/-- LD_IMM (45_register_ops.md R160). -/
def execLdImm (regX : RegIx) (immediate : Byte) (s : State) : Result :=
  .next (s.setReg regX immediate).advance

/-- ADD_IMM (45_register_ops.md R161): modulo 256, no flag. -/
def execAddImm (regX : RegIx) (immediate : Byte) (s : State) : Result :=
  .next (s.setReg regX (s.reg regX + immediate)).advance

/-- LD_I (45_register_ops.md R162). -/
def execLdI (address : Addr12) (s : State) : Result :=
  .next (s.setIndex (zextAddr address)).advance

/-- RND (45_register_ops.md R163): one draw, made whatever the mask. -/
def execRnd (regX : RegIx) (immediate : Byte) (s : State) : Result :=
  let (b, t) := s.drawByte
  .next (t.setReg regX (b &&& immediate)).advance

end Sys2Proof.Machine
end

