-- ==== Sys2Proof/Machine/Skips.lean ====
section
/-! DEFINITION. The six conditional skips (44_skips.md). -/

namespace Sys2Proof.Machine

/-- The skip mechanism (44_skips.md R140): the normal advance always, one more when the condition holds. -/
def skipIf (cond : Bool) (s : State) : Result :=
  .next (if cond then s.advance.advance else s.advance)

/-- SE_IMM (44_skips.md R141). -/
def execSeImm (regX : RegIx) (immediate : Byte) (s : State) : Result :=
  skipIf (s.reg regX == immediate) s

/-- SNE_IMM (44_skips.md R142). -/
def execSneImm (regX : RegIx) (immediate : Byte) (s : State) : Result :=
  skipIf (s.reg regX != immediate) s

/-- SE_REG (44_skips.md R143). -/
def execSeReg (regX regY : RegIx) (s : State) : Result :=
  skipIf (s.reg regX == s.reg regY) s

/-- SNE_REG (44_skips.md R144). -/
def execSneReg (regX regY : RegIx) (s : State) : Result :=
  skipIf (s.reg regX != s.reg regY) s

/-- SKP (44_skips.md R145, R147). -/
def execSkp (regX : RegIx) (s : State) : Result :=
  skipIf (s.reg regX == s.sampledKey) s

/-- SKNP (44_skips.md R146, R147). -/
def execSknp (regX : RegIx) (s : State) : Result :=
  skipIf (s.reg regX != s.sampledKey) s

end Sys2Proof.Machine
end

