-- ==== Sys2Proof/Machine/System.lean ====
section
/-! DEFINITION. The system instruction (41_system.md). -/

namespace Sys2Proof.Machine

/-- HALT (41_system.md R90): no state changes, `PC` stays. The outcome `Halted` is what `stepPort` answers (Machine/Ports.lean; log
entry 2). -/
def execHalt (s : State) : Result :=
  .next s

end Sys2Proof.Machine
end

