-- ==== Sys2Proof/Machine/Dispatch.lean ====
section
/-! DEFINITION. Which meaning each instruction has: one arm per row of spec/opcode_table.json, in its order. -/

namespace Sys2Proof.Machine

def exec (i : Instr) (s : State) : Host.Outcome State Fault Refusal :=
  match i with
  | .halt => Sys2Proof.Machine.execHalt s
  | .cls => Sys2Proof.Machine.execCls s
  | .ret => Sys2Proof.Machine.execRet s
  | .jp address => Sys2Proof.Machine.execJp address s
  | .call address => Sys2Proof.Machine.execCall address s
  | .seImm regX immediate => Sys2Proof.Machine.execSeImm regX immediate s
  | .sneImm regX immediate => Sys2Proof.Machine.execSneImm regX immediate s
  | .seReg regX regY => Sys2Proof.Machine.execSeReg regX regY s
  | .ldImm regX immediate => Sys2Proof.Machine.execLdImm regX immediate s
  | .addImm regX immediate => Sys2Proof.Machine.execAddImm regX immediate s
  | .sneReg regX regY => Sys2Proof.Machine.execSneReg regX regY s
  | .ldI address => Sys2Proof.Machine.execLdI address s
  | .jpV0 address => Sys2Proof.Machine.execJpV0 address s
  | .rnd regX immediate => Sys2Proof.Machine.execRnd regX immediate s
  | .drw regX regY subop => Sys2Proof.Machine.execDrw regX regY subop s
  | .skp regX => Sys2Proof.Machine.execSkp regX s
  | .sknp regX => Sys2Proof.Machine.execSknp regX s

end Sys2Proof.Machine
end

