-- ==== Sys2Proof/Machine/Step.lean ====
section
/-! DEFINITION. One step of the Execution Engine: fetch, decode, select, execute (40_decode_dispatch.md R73, R82). -/

namespace Sys2Proof.Machine

/-- One step. The fetch and the dispatcher raise before anything is executed (60_exceptions.md R187). -/
def step (s : State) : Host.Outcome State Fault Refusal :=
  match s.fetch with
  | .error f => raise f
  | .ok w =>
    match decodeWord w with
    | .error _ => raise (.unknownOpcode s.pc w)
    | .ok i => exec i s

/-- `s` with the instruction word `w` where the next step fetches it, high byte first (30_encoding.md R50). Where `PC` leaves no room
for two bytes, no word can be fetched at all, and `PC` is put at 0x200 (log entry 5). -/
def State.withFetchWord (s : State) (nbits w : Nat) : State :=
  let pc : Word := if s.pc.toNat + 1 < Config.memSize then s.pc else BitVec.ofNat 16 Config.loadBase
  { s with pc := pc, mem := s.mem.load pc.toNat (bytesOfWord (tableWord nbits w)) }

end Sys2Proof.Machine
end

