-- ==== Sys2Proof/Machine/Ports.lean ====
section
/-! DEFINITION. The boundary between the CORE and the host (70_reset_and_hazards.md R210 to R219): construction, the step request and
its outcome, the key latch, the random port, the display view and the debug dump. -/

namespace Sys2Proof.Machine

/-- A construction that fails, which is no fatal condition of a step (70_reset_and_hazards.md R212). -/
inductive LoadError where
  /-- The image is longer than 3584 bytes. -/
  | imageTooLong (length : Nat)
deriving DecidableEq, Repr

/-- `construct(image)`: reset and load (70_reset_and_hazards.md R210 to R212). -/
def construct (image : List Byte) : Except LoadError State :=
  if imageFits image then .ok { State.reset with mem := Memory.load [] Config.loadBase image }
  else .error (.imageTooLong image.length)

/-- `key_in`: the host writes the latch between steps (70_reset_and_hazards.md R215). -/
def State.keyIn (s : State) (b : Byte) : State :=
  { s with key := b }

/-- `rnd_in`: the host makes the Random Byte Source answer these bytes, in order, after those it has supplied before
(70_reset_and_hazards.md R218, log entry 1). -/
def State.supplyRandom (s : State) (bs : List Byte) : State :=
  { s with rndIn := s.rndIn ++ bs }

/-- `disp_out` (70_reset_and_hazards.md R216). -/
def State.dispOut (s : State) : Display :=
  s.disp

/-- One pixel of the display view. -/
def State.pixel (s : State) (row : Fin 32) (col : Fin 64) : Bool :=
  s.disp[row][col]

/-- The debug dump: `PC`, `I` and the 16 registers, the values only (70_reset_and_hazards.md R217). -/
structure DebugDump where
  dbgPc : Word
  dbgI : Word
  dbgV : Vector Byte 16
deriving DecidableEq, Repr

/-- `dbg_pc`, `dbg_i`, `dbg_v` (70_reset_and_hazards.md R217). -/
def State.debugDump (s : State) : DebugDump :=
  ⟨s.pc, s.index, s.v⟩

/-- The instruction the next step selects, if it fetches one (40_decode_dispatch.md R76, R77). -/
def State.selected (s : State) : Option Instr :=
  match s.fetch with
  | .error _ => none
  | .ok w =>
    match decodeWord w with
    | .error _ => none
    | .ok i => some i

/-- The step request with what it leaves and what it answers: `Step(S, rnd)` of 40_decode_dispatch.md R82. `Halted` when the selected
instruction is HALT, else `Continue` (R79); a fatal condition leaves the state as it was (60_exceptions.md R186, log entry 3). -/
def stepPort (s : State) : State × StepResult :=
  match step s with
  | .next t => (t, if s.selected = some .halt then .halted else .continues)
  | .fault f => (s, .fatal f.record)
  | .refused r => (s, .refused r)

/-- What the host can do between two steps, and the step request itself (70_reset_and_hazards.md R214, R215, R218, R219). The views
and the dump change nothing, so they are no moves. -/
inductive HostMove where
  | step
  | keyIn (b : Byte)
  | supplyRandom (bs : List Byte)
deriving DecidableEq, Repr

/-- The state after one move of the host. -/
def State.move (s : State) : HostMove → State
  | .step => (stepPort s).1
  | .keyIn b => s.keyIn b
  | .supplyRandom bs => s.supplyRandom bs

end Sys2Proof.Machine
end

