-- ==== Sys2Proof/Safety.lean ====
section
/-! DEFINITION. The words claims are stated in: well-formed and reachable states, the illegal words, the sprite's pixels, the ends of
a run. -/

namespace Sys2Proof.Machine

/-- A state that is one of the machine's: the stack within its depth (10_state.md R16) and memory in its canonical form. -/
def State.wf (s : State) : Bool :=
  decide (s.stack.length ≤ Config.stackDepth) && s.mem.wf

/-- The ranges of 10_state.md section 16 (an inference the spec marks as its own), with the stack's depth. -/
structure State.InRange (s : State) : Prop where
  /-- `I` is at most 0x0FFF. -/
  index_le : s.index.toNat ≤ 0x0FFF
  /-- `PC` is at most 0x10FE. -/
  pc_le : s.pc.toNat ≤ 0x10FE
  /-- Every stack entry is at most 0x0FFE. -/
  entry_le : ∀ e ∈ s.stack, e.toNat ≤ 0x0FFE
  /-- `len(stack)` is at most 16. -/
  depth_le : s.stack.length ≤ 16

/-- A state the host can bring a machine constructed from `image` into, by any moves (70_reset_and_hazards.md R210, R214, R215,
R218). -/
def Reachable (image : List Byte) (s : State) : Prop :=
  ∃ s₀ moves, construct image = .ok s₀ ∧ s = List.foldl State.move s₀ moves

/-- The 16,349 words that are no instruction, by the ranges of the table of 30_encoding.md R58. -/
def IllegalWord (w : Word) : Prop :=
  (0x0001 ≤ w.toNat ∧ w.toNat ≤ 0x0FFF ∧ w.toNat ≠ 0x00E0 ∧ w.toNat ≠ 0x00EE) ∨
  (0x8000 ≤ w.toNat ∧ w.toNat ≤ 0x8FFF) ∨
  (0xE000 ≤ w.toNat ∧ w.toNat ≤ 0xEFFF ∧ w.toNat % 256 ≠ 0x9E ∧ w.toNat % 256 ≠ 0xA1) ∨
  0xF000 ≤ w.toNat

/-- The sprite bit that falls on the pixel at `row`, `col` when DRW draws `height` rows at column `x` and row `y` with the sprite at
`base`: row `row - y` of the sprite, its most significant bit at column `x`; false where the sprite does not reach
(42_display.md R102, R104). -/
def spriteBit (m : Memory) (base x y height row col : Nat) : Bool :=
  decide (y ≤ row ∧ row < y + height ∧ x ≤ col ∧ col < x + 8) && (m.byteAt (base + (row - y))).getLsbD (7 - (col - x))

/-- The two bytes at `PC` lie in memory and are the word `w`, the high byte first (20_memory.md R33). -/
def State.WordAt (s : State) (w : Word) : Prop :=
  s.pc.toNat + 1 < 4096 ∧ w.toNat = 256 * (s.mem.byteAt s.pc.toNat).toNat + (s.mem.byteAt (s.pc.toNat + 1)).toNat

/-- A step that selects `i` and raises nothing answers `Continue` (40_decode_dispatch.md R79; the `outcome` line of the instruction's
rule). -/
def StepContinues (i : Instr) : Prop :=
  ∀ (s t : State) (w : Word), s.WordAt w → decodeWord w = .ok i → exec i s = .next t → stepPort s = (t, .continues)

/-- The effects of several instructions one after the other, stopping at the first that raises. -/
def execList : List Instr → State → Result
  | [], s => .next s
  | i :: is, s =>
    match exec i s with
    | .next t => execList is t
    | .fault f => .fault f
    | .refused r => .refused r

/-- A run from `image` ends successfully in `s`: the host brought it there and the step it requests answers `Halted`
(70_reset_and_hazards.md R223). -/
def EndsHalted (image : List Byte) (s : State) : Prop :=
  Reachable image s ∧ (stepPort s).2 = .halted

/-- A run from `image` ends in failure in `s` (70_reset_and_hazards.md R223). -/
def EndsFatal (image : List Byte) (s : State) : Prop :=
  Reachable image s ∧ ∃ r, (stepPort s).2 = .fatal r

end Sys2Proof.Machine
end

