-- ==== Sys2Proof/Certificates/Slice0/Obligations.lean ====
section
/-! DEFINITION. The statements for the provers. Each docstring names the rule of spec/ its statement formalises; where a clause rests on a
decision of 92_eei_decisions.md, on an inference the spec marks as its own, or on an entry of the assumption log, the docstring says so. -/

open Sys2Proof Sys2Proof.Machine

/-! ## Encoding -/

/-- Decode and encode agree: the decoder reads every instruction back from its own word, and on bytes it leaves exactly the bytes after
the two it used. Derived: 30_encoding.md sections 3 and 5 (the assembler's words are the spec's decision D19). -/
def Obligations.DecodeInvertsEncode : Prop :=
  ∀ i : Instr, decodeWord (encode i) = .ok i ∧ ∀ rest : List Byte, decode (bytesOfWord (encode i) ++ rest) = .ok (i, rest)

/-- A legal word is the word of the instruction it decodes to, but for the low nibble of the families 5 and 9, which the encoder writes
0. Derived: 30_encoding.md section 3 (the ignored nibble is the spec's decision D15, log entry 11). -/
def Obligations.EncodeInvertsDecode : Prop :=
  ∀ (w : Word) (i : Instr), decodeWord w = .ok i →
    encode i = if w.toNat / 4096 = 5 ∨ w.toNat / 4096 = 9 then w &&& 0xFFF0#16 else w

/-- In the families 5 and 9 the low nibble may be anything: two words that differ only there are one instruction. Derived:
30_encoding.md section 3 (the spec's decision D15, log entry 11). -/
def Obligations.LowNibbleOfRegisterSkipsIgnored : Prop :=
  ∀ w u : Word, w.toNat / 4096 = 5 ∨ w.toNat / 4096 = 9 → w.toNat / 16 = u.toNat / 16 → decodeWord w = decodeWord u

/-- The decoder's outputs are the bit slices of 40_decode_dispatch.md R71, for every word. -/
def Obligations.DecoderFieldsAreBitSlices : Prop :=
  ∀ w : Word,
    (fieldsOf w).address.toNat = w.toNat % 4096 ∧ (fieldsOf w).immediate.toNat = w.toNat % 256 ∧
    (fieldsOf w).regX.val = w.toNat / 256 % 16 ∧ (fieldsOf w).regY.val = w.toNat / 16 % 16 ∧
    (fieldsOf w).subop.toNat = w.toNat % 16 ∧ (fieldsOf w).op.toNat = w.toNat / 4096

/-- The fields put the word back together, and the five outputs do not depend on `op`. Derived: 40_decode_dispatch.md section 1 (the
spec marks these checks as its own inference). -/
def Obligations.DecoderFieldsReassemble : Prop :=
  ∀ w : Word,
    w.toNat = (fieldsOf w).op.toNat * 4096 + (fieldsOf w).address.toNat ∧
    (fieldsOf w).address.toNat = (fieldsOf w).regX.val * 256 + (fieldsOf w).immediate.toNat ∧
    (fieldsOf w).immediate.toNat = (fieldsOf w).regY.val * 16 + (fieldsOf w).subop.toNat ∧
    fieldsOf (w ^^^ 0xF000#16) = { fieldsOf w with op := (fieldsOf w).op ^^^ 0xF#4 }

/-- No word is selected by two rows of the opcode table. Derived: 30_encoding.md section 3 (the spec marks it as its own inference). -/
def Obligations.OpcodeRowsPairwiseDisjoint : Prop :=
  ∀ (w : Word) (r q : OpcodeRow), r ∈ opcodeTable → q ∈ opcodeTable → r.selects w = true → q.selects w = true → r = q

/-- The dispatcher and the table agree: a word is the instruction of the row that selects it, and a word no row selects is none.
Derived: 30_encoding.md section 3 and 40_decode_dispatch.md section 2. -/
def Obligations.DispatchAgreesWithOpcodeTable : Prop :=
  ∀ w : Word,
    (∀ i, decodeWord w = .ok i → ∃ r ∈ opcodeTable, r.selects w = true ∧ r.mnemonic = i.mnemonic) ∧
    (∀ r ∈ opcodeTable, r.selects w = true → ∃ i, decodeWord w = .ok i ∧ i.mnemonic = r.mnemonic) ∧
    ((∀ r ∈ opcodeTable, r.selects w = false) → decodeWord w = .error (.unknownOpcode w))

/-- The illegal words are exactly those of the table of 30_encoding.md R58: no row selects them, and the decoder rejects them and no
others. Derived: 30_encoding.md section 4. -/
def Obligations.IllegalWordsAreThoseOfTheTable : Prop :=
  ∀ w : Word,
    (IllegalWord w ↔ ∀ r ∈ opcodeTable, r.selects w = false) ∧
    (IllegalWord w ↔ decodeWord w = .error (.unknownOpcode w))

/-- Words written out from the encodings of 30_encoding.md decode to the instructions they stand for. Derived: 95_test_vectors.md
Part 2, Dispatch. -/
def Obligations.SampleWordsDecode : Prop :=
  decodeWord 0x0000#16 = .ok .halt ∧ decodeWord 0x00E0#16 = .ok .cls ∧ decodeWord 0x00EE#16 = .ok .ret ∧
  decodeWord 0x1ABC#16 = .ok (.jp 0xABC#12) ∧ decodeWord 0x512F#16 = .ok (.seReg 1 2) ∧
  decodeWord 0x6A7F#16 = .ok (.ldImm 10 0x7F#8) ∧ decodeWord 0xA21E#16 = .ok (.ldI 0x21E#12) ∧
  decodeWord 0xD125#16 = .ok (.drw 1 2 0x5#4) ∧ decodeWord 0xE49E#16 = .ok (.skp 4) ∧ decodeWord 0xE4A1#16 = .ok (.sknp 4) ∧
  decodeWord 0x8120#16 = .error (.unknownOpcode 0x8120#16)

/-! ## The step -/

/-- A step runs the decoded instruction: the step is `exec` of it at the same state, with nothing added around it (no register moves
before the instruction's own rule). Derived: 40_decode_dispatch.md section 2. -/
def Obligations.StepRunsTheDecodedInstr : Prop :=
  ∀ (s : State) (w : Word) (i : Instr), s.WordAt w → decodeWord w = .ok i → step s = exec i s

/-- The fetch raises OutOfBoundsAccess exactly when `PC` is 0x0FFF or more, reporting 0x1000 at 0x0FFF and `PC` itself above, with no
instruction word. Derived: 20_memory.md section 2 and 60_exceptions.md section 2 (the reported address is the spec's decision D12). -/
def Obligations.FetchOutOfBounds : Prop :=
  ∀ s : State,
    (s.pc.toNat = 0x0FFF → step s = .fault (.outOfBoundsFetch s.pc 0x1000#16)) ∧
    (0x1000 ≤ s.pc.toNat → step s = .fault (.outOfBoundsFetch s.pc s.pc)) ∧
    (s.pc.toNat < 0x0FFF → ∀ p a, step s ≠ .fault (.outOfBoundsFetch p a))

/-- UnknownOpcode is raised for exactly the illegal words, and records `pc` and the word. Derived: 60_exceptions.md section 2 (that the
other policy is not taken is the spec's decision D13). -/
def Obligations.UnknownOpcodeForExactlyTheIllegalWords : Prop :=
  ∀ (s : State) (w : Word), s.WordAt w → (IllegalWord w ↔ step s = .fault (.unknownOpcode s.pc w))

/-- The step is total and never refuses. Derived: 40_decode_dispatch.md section 2 (the whole step as one function, which the spec marks
as its own inference). -/
def Obligations.StepNeverRefuses : Prop :=
  ∀ s : State, (∃ t, step s = .next t) ∨ (∃ f, step s = .fault f)

/-- Every fatal condition, and nothing else, makes a step raise: the complete table of 60_exceptions.md section 3, with the record of
each. Derived: 60_exceptions.md sections 2 and 3 (the spec's decisions D7, D12, D18; a stack longer than 16 is log entry 13). -/
def Obligations.StepRaisesExactlyTheFatalConditions : Prop :=
  ∀ (s : State) (f : Fault), step s = .fault f ↔
    (0x0FFF ≤ s.pc.toNat ∧ f = .outOfBoundsFetch s.pc (BitVec.ofNat 16 (max s.pc.toNat 0x1000))) ∨
    ∃ w : Word, s.WordAt w ∧
      ((IllegalWord w ∧ f = .unknownOpcode s.pc w) ∨
       (w.toNat / 4096 = 2 ∧ 16 ≤ s.stack.length ∧ f = .stackOverflow s.pc w) ∨
       (w = 0x00EE#16 ∧ s.stack = [] ∧ f = .stackUnderflow s.pc w) ∨
       (w.toNat / 4096 = 13 ∧ 1 ≤ w.toNat % 16 ∧ 4096 ≤ s.index.toNat + w.toNat % 16 - 1 ∧
        f = .outOfBoundsSprite s.pc w (BitVec.ofNat 16 (max s.index.toNat 4096))))

/-- The fault records and their cause codes. Derived: 60_exceptions.md section 2 (the codes and the layout are the spec's decision D18). -/
def Obligations.FatalRecordsCarryTheirCodes : Prop :=
  ∀ p w a : Word,
    (Fault.unknownOpcode p w).record = ⟨1, p, some w, none⟩ ∧ (Fault.stackOverflow p w).record = ⟨2, p, some w, none⟩ ∧
    (Fault.stackUnderflow p w).record = ⟨3, p, some w, none⟩ ∧ (Fault.outOfBoundsFetch p a).record = ⟨4, p, none, some a⟩ ∧
    (Fault.outOfBoundsSprite p w a).record = ⟨4, p, some w, some a⟩

/-- The outcome of a step request (40_decode_dispatch.md R79): Halted when the selected instruction is HALT, Continue for every other
step that raised nothing, Fatal with its record for a step that raised. -/
def Obligations.StepOutcomeIsHaltedContinueOrFatal : Prop :=
  ∀ s : State,
    (∀ t, step s = .next t → s.WordAt 0x0000#16 → stepPort s = (t, .halted)) ∧
    (∀ t, step s = .next t → ¬ s.WordAt 0x0000#16 → stepPort s = (t, .continues)) ∧
    (∀ f, step s = .fault f → (stepPort s).2 = .fatal f.record)

/-- A step that answers Fatal leaves the whole state as it was, and the same record comes again from every later step request, whatever
the host writes to `KEY` or puts on the random port. Derived: 60_exceptions.md sections 3 and 5 (the spec's decision D6 and its own
inference; log entry 3). -/
def Obligations.FatalStepWritesNothingAndRepeats : Prop :=
  ∀ (s : State) (r : FatalRecord), (stepPort s).2 = .fatal r →
    (stepPort s).1 = s ∧
    ∀ moves : List HostMove,
      let s' := List.foldl State.move s moves
      (stepPort s').2 = .fatal r ∧ s' = { s with key := s'.key, rndIn := s'.rndIn }

/-- HALT repeats: after a step that answers Halted every later step request answers Halted and changes nothing, whatever the host writes
to `KEY` in between. Derived: 41_system.md, which marks it as its own inference (log entries 1 and 2). -/
def Obligations.HaltedStepRepeats : Prop :=
  ∀ s : State, (stepPort s).2 = .halted →
    ∀ moves : List HostMove,
      let s' := List.foldl State.move s moves
      (stepPort s').2 = .halted ∧ s' = { s with key := s'.key, rndIn := s'.rndIn }

/-! ## System -/

/-- HALT: only the word 0x0000; no state changes, and the step answers Halted. Derived: 41_system.md HALT (that the word keeps this
meaning is the spec's decision D14). The clause `exec .halt s = .next s` is the model's DESIGN CHOICE, log entry 2: the spec's outcome is
Halted, which `stepPort` answers. -/
def Obligations.HaltChangesNothing : Prop :=
  (∀ w : Word, decodeWord w = .ok .halt ↔ w = 0x0000#16) ∧
  ∀ s : State, exec .halt s = .next s ∧ (s.WordAt 0x0000#16 → stepPort s = (s, .halted))

/-! ## Display -/

/-- CLS (42_display.md R101): only the word 0x00E0; every pixel becomes 0, `PC` advances by 2, nothing else changes, and
the step answers Continue. -/
def Obligations.ClsClearsEveryPixel : Prop :=
  (∀ w : Word, decodeWord w = .ok .cls ↔ w = 0x00E0#16) ∧
  (∀ s : State, ∃ t, exec .cls s = .next t ∧ (∀ row col, t.pixel row col = false) ∧
    t = { s with disp := t.disp, pc := s.pc + 2#16 }) ∧
  StepContinues .cls

/-- DRW whose sprite bytes all lie in memory: every pixel is XORed with the sprite bit that falls on it and no other pixel changes, VF
is 1 exactly when a pixel that was on is turned off, and nothing else changes but `PC`. The coordinates are the values the registers
held before, VF's included. Derived: 42_display.md section 3 (the spec's decisions D7 to D10, log entries 9 and 10). -/
def Obligations.DrwXorsTheSpriteAndFlagsCollision : Prop :=
  ∀ (x y : RegIx) (n : Nibble) (s : State), n.toNat = 0 ∨ s.index.toNat + n.toNat ≤ 4096 →
    let bit := fun (row : Fin 32) (col : Fin 64) =>
      spriteBit s.mem s.index.toNat (s.reg x).toNat (s.reg y).toNat n.toNat row.val col.val
    ∃ t, exec (.drw x y n) s = .next t ∧
      (∀ row col, t.pixel row col = (s.pixel row col ^^ bit row col)) ∧
      ((∃ row col, s.pixel row col = true ∧ bit row col = true) → t.reg 15 = 1#8) ∧
      ((∀ row col, s.pixel row col = false ∨ bit row col = false) → t.reg 15 = 0#8) ∧
      (∀ r, r ≠ 15 → t.reg r = s.reg r) ∧
      t = { s with disp := t.disp, v := t.v, pc := s.pc + 2#16 }

/-- DRW's encoding and its bounds check: a sprite byte at 4096 or above raises OutOfBoundsAccess with the DRW word and the lowest such
address, whatever would be clipped. Derived: 42_display.md section 3 (the spec's decisions D7 and D18, log entry 9). -/
def Obligations.DrwChecksEverySpriteByte : Prop :=
  (∀ w : Word, w.toNat / 4096 = 13 →
    ∃ x y n, decodeWord w = .ok (.drw x y n) ∧ x.val = w.toNat / 256 % 16 ∧ y.val = w.toNat / 16 % 16 ∧ n.toNat = w.toNat % 16) ∧
  ∀ (x y : RegIx) (n : Nibble) (s : State), 1 ≤ n.toNat → 4096 ≤ s.index.toNat + n.toNat - 1 →
    exec (.drw x y n) s =
      .fault (.outOfBoundsSprite s.pc (BitVec.ofNat 16 (0xD000 + x.val * 256 + y.val * 16 + n.toNat))
        (BitVec.ofNat 16 (max s.index.toNat 4096)))

/-- A sprite whose origin lies off the buffer draws nothing, and VF becomes 0. Derived: 42_display.md section 3 (no wraparound is the
spec's decision D9, log entry 10). -/
def Obligations.DrwOffTheBufferDrawsNothing : Prop :=
  ∀ (x y : RegIx) (n : Nibble) (s : State), n.toNat = 0 ∨ s.index.toNat + n.toNat ≤ 4096 →
    64 ≤ (s.reg x).toNat ∨ 32 ≤ (s.reg y).toNat →
    ∃ t, exec (.drw x y n) s = .next t ∧ t.disp = s.disp ∧ t.reg 15 = 0#8

/-- Drawing the same sprite twice at the same place restores the display, and the second draw collides exactly where the first turned a
pixel on. The coordinate registers must not be VF, which the first draw overwrites. Derived: 42_display.md section 3. -/
def Obligations.DrawingTwiceRestoresTheDisplay : Prop :=
  ∀ (x y : RegIx) (n : Nibble) (s t : State), x ≠ 15 → y ≠ 15 → exec (.drw x y n) s = .next t →
    ∃ u, exec (.drw x y n) t = .next u ∧ u.disp = s.disp ∧
      (u.reg 15 = 1#8 ↔ ∃ row col, s.pixel row col = false ∧ t.pixel row col = true)

/-! ## Control transfer -/

/-- RET (43_control_flow.md R123): only the word 0x00EE; the last entry is popped and `PC` is that entry plus 2, and with an empty stack
StackUnderflow is raised and nothing is written. A RET that raises nothing answers Continue. -/
def Obligations.RetPopsAndAdvances : Prop :=
  (∀ w : Word, decodeWord w = .ok .ret ↔ w = 0x00EE#16) ∧
  (∀ (s : State) (below : List Word) (top : Word), s.stack = below ++ [top] →
    exec .ret s = .next { s with stack := below, pc := BitVec.ofNat 16 ((top.toNat + 2) % 65536) }) ∧
  (∀ s : State, s.stack = [] → exec .ret s = .fault (.stackUnderflow s.pc 0x00EE#16)) ∧
  (∀ s : State, s.WordAt 0x00EE#16 → s.stack = [] → (stepPort s).1 = s) ∧
  StepContinues .ret

/-- JP (43_control_flow.md R124): every word with high nibble 1; `PC` becomes the address, nothing else changes, and the
step answers Continue. -/
def Obligations.JpSetsThePc : Prop :=
  (∀ w : Word, w.toNat / 4096 = 1 → ∃ a, decodeWord w = .ok (.jp a) ∧ a.toNat = w.toNat % 4096) ∧
  ∀ a : Addr12, (∀ s : State, exec (.jp a) s = .next { s with pc := BitVec.ofNat 16 a.toNat }) ∧ StepContinues (.jp a)

/-- CALL (43_control_flow.md R125, 60_exceptions.md R182): every word with high nibble 2; the CALL's own address is pushed and `PC`
becomes the address, and exactly with 16 entries StackOverflow is raised with the CALL word and nothing is written. A CALL that raises
nothing answers Continue. -/
def Obligations.CallPushesItsOwnAddress : Prop :=
  (∀ w : Word, w.toNat / 4096 = 2 → ∃ a, decodeWord w = .ok (.call a) ∧ a.toNat = w.toNat % 4096) ∧
  (∀ (a : Addr12) (s : State), s.stack.length < 16 →
    exec (.call a) s = .next { s with stack := s.stack ++ [s.pc], pc := BitVec.ofNat 16 a.toNat }) ∧
  (∀ (a : Addr12) (s : State), s.stack.length = 16 →
    exec (.call a) s = .fault (.stackOverflow s.pc (BitVec.ofNat 16 (0x2000 + a.toNat)))) ∧
  (∀ (s : State) (w : Word), s.WordAt w → w.toNat / 4096 = 2 → s.stack.length = 16 → (stepPort s).1 = s) ∧
  ∀ a : Addr12, StepContinues (.call a)

/-- JP_V0: every word with high nibble 0xB; `PC` becomes the exact sum of the address and V0, whatever `regX` is, and nothing else
changes. Derived: 43_control_flow.md section 5 (the unreduced sum is the spec's decision D11). -/
def Obligations.JpV0SetsThePcToTheExactSum : Prop :=
  (∀ w : Word, w.toNat / 4096 = 11 → ∃ a, decodeWord w = .ok (.jpV0 a) ∧ a.toNat = w.toNat % 4096) ∧
  ∀ (a : Addr12) (s : State), ∃ t, exec (.jpV0 a) s = .next t ∧ t.pc.toNat = a.toNat + (s.reg 0).toNat ∧ t = { s with pc := t.pc }

/-- A CALL and the RET that pops its entry pair up: `PC` after the RET is the CALL's address plus 2 and the stack is as before the CALL,
whatever ran in between. Derived: 43_control_flow.md section 6, which marks it as its own inference. -/
def Obligations.ReturnGoesPastTheCall : Prop :=
  ∀ (a : Addr12) (s t u : State), exec (.call a) s = .next t → u.stack = t.stack →
    ∃ z, exec .ret u = .next z ∧ z.pc = s.pc + 2#16 ∧ z.stack = s.stack

/-- Sixteen nested CALLs succeed from an empty stack and the seventeenth raises StackOverflow. Derived:
43_control_flow.md section 6 and 60_exceptions.md section 2. -/
def Obligations.SeventeenthNestedCallOverflows : Prop :=
  ∀ (targets : List Addr12) (s : State), s.stack = [] → targets.length = 16 →
    ∃ t, execList (targets.map Instr.call) s = .next t ∧ t.stack.length = 16 ∧
      ∀ a : Addr12, exec (.call a) t = .fault (.stackOverflow t.pc (BitVec.ofNat 16 (0x2000 + a.toNat)))

/-! ## Skips -/

/-- SE_IMM and SNE_IMM (44_skips.md R141, R142): every word with high nibble 3 or 4; `PC` grows by 4 when the condition holds and by 2
when it does not, nothing else changes, and the step answers Continue. -/
def Obligations.ImmediateSkips : Prop :=
  (∀ w : Word, w.toNat / 4096 = 3 →
    ∃ x k, decodeWord w = .ok (.seImm x k) ∧ x.val = w.toNat / 256 % 16 ∧ k.toNat = w.toNat % 256) ∧
  (∀ w : Word, w.toNat / 4096 = 4 →
    ∃ x k, decodeWord w = .ok (.sneImm x k) ∧ x.val = w.toNat / 256 % 16 ∧ k.toNat = w.toNat % 256) ∧
  (∀ (x : RegIx) (k : Byte) (s : State),
    exec (.seImm x k) s = .next { s with pc := if s.reg x = k then s.pc + 4#16 else s.pc + 2#16 } ∧
    exec (.sneImm x k) s = .next { s with pc := if s.reg x ≠ k then s.pc + 4#16 else s.pc + 2#16 }) ∧
  ∀ (x : RegIx) (k : Byte), StepContinues (.seImm x k) ∧ StepContinues (.sneImm x k)

/-- SE_REG and SNE_REG (44_skips.md R143, R144): every word with high nibble 5 or 9, the low nibble free; `PC` grows by 4 when the
condition holds and by 2 when it does not, nothing else changes, and the step answers Continue. -/
def Obligations.RegisterSkips : Prop :=
  (∀ w : Word, w.toNat / 4096 = 5 →
    ∃ x y, decodeWord w = .ok (.seReg x y) ∧ x.val = w.toNat / 256 % 16 ∧ y.val = w.toNat / 16 % 16) ∧
  (∀ w : Word, w.toNat / 4096 = 9 →
    ∃ x y, decodeWord w = .ok (.sneReg x y) ∧ x.val = w.toNat / 256 % 16 ∧ y.val = w.toNat / 16 % 16) ∧
  (∀ (x y : RegIx) (s : State),
    exec (.seReg x y) s = .next { s with pc := if s.reg x = s.reg y then s.pc + 4#16 else s.pc + 2#16 } ∧
    exec (.sneReg x y) s = .next { s with pc := if s.reg x ≠ s.reg y then s.pc + 4#16 else s.pc + 2#16 }) ∧
  ∀ (x y : RegIx), StepContinues (.seReg x y) ∧ StepContinues (.sneReg x y)

/-- SKP and SKNP (44_skips.md R145, R146): the words 0xEx9E and 0xExA1; all 8 bits of the register are compared with the latch as it
stood when the step began, nothing changes but `PC`, and the step answers Continue. -/
def Obligations.KeySkips : Prop :=
  (∀ w : Word, w.toNat / 4096 = 14 → w.toNat % 256 = 0x9E → ∃ x, decodeWord w = .ok (.skp x) ∧ x.val = w.toNat / 256 % 16) ∧
  (∀ w : Word, w.toNat / 4096 = 14 → w.toNat % 256 = 0xA1 → ∃ x, decodeWord w = .ok (.sknp x) ∧ x.val = w.toNat / 256 % 16) ∧
  (∀ w : Word, w.toNat / 4096 = 14 → w.toNat % 256 ≠ 0x9E → w.toNat % 256 ≠ 0xA1 → decodeWord w = .error (.unknownOpcode w)) ∧
  (∀ (x : RegIx) (s : State),
    exec (.skp x) s = .next { s with pc := if s.reg x = s.key then s.pc + 4#16 else s.pc + 2#16 } ∧
    exec (.sknp x) s = .next { s with pc := if s.reg x ≠ s.key then s.pc + 4#16 else s.pc + 2#16 }) ∧
  ∀ x : RegIx, StepContinues (.skp x) ∧ StepContinues (.sknp x)

/-! ## Register instructions -/

/-- LD_IMM (45_register_ops.md R160): every word with high nibble 6; the register receives the immediate, VF like any other,
nothing else changes but `PC`, and the step answers Continue. -/
def Obligations.LdImmLoadsTheImmediate : Prop :=
  (∀ w : Word, w.toNat / 4096 = 6 →
    ∃ x k, decodeWord w = .ok (.ldImm x k) ∧ x.val = w.toNat / 256 % 16 ∧ k.toNat = w.toNat % 256) ∧
  (∀ (x : RegIx) (k : Byte) (s : State), ∃ t, exec (.ldImm x k) s = .next t ∧ t.reg x = k ∧
    (∀ r, r ≠ x → t.reg r = s.reg r) ∧ t = { s with v := t.v, pc := s.pc + 2#16 }) ∧
  ∀ (x : RegIx) (k : Byte), StepContinues (.ldImm x k)

/-- ADD_IMM (45_register_ops.md R161): every word with high nibble 7; the sum wraps modulo 256, no other register changes (VF takes no
carry), nothing else changes but `PC`, and the step answers Continue. -/
def Obligations.AddImmWrapsWithoutCarry : Prop :=
  (∀ w : Word, w.toNat / 4096 = 7 →
    ∃ x k, decodeWord w = .ok (.addImm x k) ∧ x.val = w.toNat / 256 % 16 ∧ k.toNat = w.toNat % 256) ∧
  (∀ (x : RegIx) (k : Byte) (s : State), ∃ t, exec (.addImm x k) s = .next t ∧
    (t.reg x).toNat = ((s.reg x).toNat + k.toNat) % 256 ∧
    (∀ r, r ≠ x → t.reg r = s.reg r) ∧ t = { s with v := t.v, pc := s.pc + 2#16 }) ∧
  ∀ (x : RegIx) (k : Byte), StepContinues (.addImm x k)

/-- LD_I (45_register_ops.md R162): every word with high nibble 0xA; `I` receives the zero-extended address, nothing else changes but
`PC`, and the step answers Continue. -/
def Obligations.LdILoadsTheAddress : Prop :=
  (∀ w : Word, w.toNat / 4096 = 10 → ∃ a, decodeWord w = .ok (.ldI a) ∧ a.toNat = w.toNat % 4096) ∧
  ∀ a : Addr12,
    (∀ s : State, exec (.ldI a) s = .next { s with index := BitVec.ofNat 16 a.toNat, pc := s.pc + 2#16 }) ∧ StepContinues (.ldI a)

/-- RND: every word with high nibble 0xC; exactly one byte is drawn, whatever the mask, the register receives it ANDed with the
immediate, and nothing else changes but `PC` and the port. The byte is the next one on the host's port, or, with none there, the free value; the
statement holds for every value of it. Derived: 45_register_ops.md section 4 (the draw's form is the model's DESIGN CHOICE, log entry
1). -/
def Obligations.RndStoresTheMaskedDraw : Prop :=
  (∀ w : Word, w.toNat / 4096 = 12 →
    ∃ x k, decodeWord w = .ok (.rnd x k) ∧ x.val = w.toNat / 256 % 16 ∧ k.toNat = w.toNat % 256) ∧
  ∀ (x : RegIx) (k : Byte) (s : State), ∃ t, exec (.rnd x k) s = .next t ∧
    (∀ b rest, s.rndIn = b :: rest → t.reg x = b &&& k ∧ t.rndIn = rest) ∧
    (s.rndIn = [] → t.reg x = Config.randomByte s.draws &&& k ∧ t.rndIn = []) ∧
    t.reg x &&& ~~~k = 0#8 ∧ t.draws = s.draws + 1 ∧
    (∀ r, r ≠ x → t.reg r = s.reg r) ∧
    t = { s with v := t.v, pc := s.pc + 2#16, rndIn := t.rndIn, draws := t.draws }

/-- Every byte can be the draw: whatever byte the host's source answers, RND stores it masked. Derived: 10_state.md section 11 and
70_reset_and_hazards.md section 2 (the port's form is the model's DESIGN CHOICE, log entry 1). -/
def Obligations.EveryByteCanBeDrawn : Prop :=
  ∀ (x : RegIx) (k b : Byte) (s : State), s.rndIn = [] →
    ∃ t, exec (.rnd x k) (s.supplyRandom [b]) = .next t ∧ t.reg x = b &&& k ∧ t.rndIn = []

/-! ## What every instruction leaves alone -/

/-- Which instruction writes which general register: LD_IMM, ADD_IMM and RND their `regX`, DRW VF, and no other instruction any.
Derived: 10_state.md section 2, which marks the map as its own inference. -/
def Obligations.OnlyNamedRegistersAreWritten : Prop :=
  ∀ (i : Instr) (s t : State) (r : RegIx), exec i s = .next t →
    (∀ k, i ≠ .ldImm r k ∧ i ≠ .addImm r k ∧ i ≠ .rnd r k) → (r = 15 → ∀ x y n, i ≠ .drw x y n) →
    t.reg r = s.reg r

/-- Every byte of memory and the key latch survive every instruction; `I` all but LD_I, the stack all but CALL and RET, every pixel all
but CLS and DRW, the random port all but RND. Derived: 40_decode_dispatch.md section 2 and 20_memory.md section 4 (that no instruction
writes memory is an inference the spec marks as its own). -/
def Obligations.OnlyNamedStateIsWritten : Prop :=
  ∀ (i : Instr) (s t : State), exec i s = .next t →
    (∀ a, t.mem.byteAt a = s.mem.byteAt a) ∧ t.mem = s.mem ∧ t.key = s.key ∧
    ((∀ a, i ≠ .ldI a) → t.index = s.index) ∧
    ((∀ a, i ≠ .call a) → i ≠ .ret → t.stack = s.stack) ∧
    (i ≠ .cls → (∀ x y n, i ≠ .drw x y n) → ∀ row col, t.pixel row col = s.pixel row col) ∧
    ((∀ x k, i ≠ .rnd x k) → t.rndIn = s.rndIn ∧ t.draws = s.draws)

/-- The program counter after every instruction that raised nothing: the table of 40_decode_dispatch.md R78. -/
def Obligations.PcUpdateOfEveryInstr : Prop :=
  ∀ (i : Instr) (s t : State), exec i s = .next t →
    match i with
    | .halt => t.pc = s.pc
    | .cls => t.pc = s.pc + 2#16
    | .ret => ∃ v, s.stack.getLast? = some v ∧ t.pc.toNat = (v.toNat + 2) % 65536
    | .jp a => t.pc.toNat = a.toNat
    | .call a => t.pc.toNat = a.toNat
    | .seImm x k => t.pc.toNat = (s.pc.toNat + if s.reg x = k then 4 else 2) % 65536
    | .sneImm x k => t.pc.toNat = (s.pc.toNat + if s.reg x = k then 2 else 4) % 65536
    | .seReg x y => t.pc.toNat = (s.pc.toNat + if s.reg x = s.reg y then 4 else 2) % 65536
    | .ldImm _ _ => t.pc.toNat = (s.pc.toNat + 2) % 65536
    | .addImm _ _ => t.pc.toNat = (s.pc.toNat + 2) % 65536
    | .sneReg x y => t.pc.toNat = (s.pc.toNat + if s.reg x = s.reg y then 2 else 4) % 65536
    | .ldI _ => t.pc.toNat = (s.pc.toNat + 2) % 65536
    | .jpV0 a => t.pc.toNat = a.toNat + (s.reg 0).toNat
    | .rnd _ _ => t.pc.toNat = (s.pc.toNat + 2) % 65536
    | .drw _ _ _ => t.pc.toNat = (s.pc.toNat + 2) % 65536
    | .skp x => t.pc.toNat = (s.pc.toNat + if s.reg x = s.key then 4 else 2) % 65536
    | .sknp x => t.pc.toNat = (s.pc.toNat + if s.reg x = s.key then 2 else 4) % 65536

/-- The stack is empty after construction, grows by one entry, its new last one, on each CALL that does not raise, loses its last entry
on each RET that does not raise, is changed by nothing else, a fatal condition among it, and never holds more than 16 entries
(43_control_flow.md R122). -/
def Obligations.StackChangesOnlyByCallAndRet : Prop :=
  (∀ image s, construct image = .ok s → s.stack = []) ∧
  (∀ s r, (stepPort s).2 = .fatal r → (stepPort s).1.stack = s.stack) ∧
  ∀ (i : Instr) (s t : State), exec i s = .next t →
    ((∃ a, i = .call a) → t.stack = s.stack ++ [s.pc]) ∧
    (i = .ret → ∃ v, s.stack = t.stack ++ [v]) ∧
    ((∀ a, i ≠ .call a) → i ≠ .ret → t.stack = s.stack) ∧
    (s.stack.length ≤ 16 → t.stack.length ≤ 16)

/-- No instruction but SKP and SKNP depends on the key latch: with another byte there it does the same and keeps that byte. Derived:
40_decode_dispatch.md section 2 (the moment of sampling is the spec's decision D21). -/
def Obligations.OnlyKeySkipsDependOnTheKey : Prop :=
  ∀ (i : Instr) (s : State) (b : Byte), (∀ x, i ≠ .skp x ∧ i ≠ .sknp x) →
    (∀ t, exec i s = .next t → exec i (s.keyIn b) = .next (t.keyIn b)) ∧
    (∀ f, exec i s = .fault f → exec i (s.keyIn b) = .fault f)

/-- Only DRW reads the display: with another display every instruction but CLS and DRW does the same and keeps it, and CLS ends in the
same state. Derived: 10_state.md section 7. -/
def Obligations.OnlyDrwReadsTheDisplay : Prop :=
  ∀ (i : Instr) (s : State) (d : Display), (∀ x y n, i ≠ .drw x y n) →
    (i ≠ .cls → ∀ t, exec i s = .next t → exec i { s with disp := d } = .next { t with disp := d }) ∧
    (i = .cls → exec i { s with disp := d } = exec i s) ∧
    (∀ f, exec i s = .fault f → exec i { s with disp := d } = .fault f)

/-- A step whose word is no DRW depends on memory only through the two bytes it fetches: in particular the word a skip passes over is
never examined. Derived: 20_memory.md section 4 and 40_decode_dispatch.md section 2. -/
def Obligations.OnlyDrwReadsMemoryBeyondTheFetch : Prop :=
  ∀ (s : State) (m : Memory) (w : Word), s.WordAt w → w.toNat / 4096 ≠ 13 →
    m.byteAt s.pc.toNat = s.mem.byteAt s.pc.toNat → m.byteAt (s.pc.toNat + 1) = s.mem.byteAt (s.pc.toNat + 1) →
    (∀ t, step s = .next t → step { s with mem := m } = .next { t with mem := m }) ∧
    (∀ f, step s = .fault f → step { s with mem := m } = .fault f)

/-! ## Construction and invariants -/

/-- The state after reset, piece by piece, which is the construction from an empty image. Derived: 10_state.md section 14 (`KEY` and the
zero fill of memory are the spec's decisions D5 and D3, log entries 6 and 7). -/
def Obligations.ResetStateIsTheTableOfSectionFourteen : Prop :=
  (∀ r, State.reset.reg r = 0#8) ∧ State.reset.index = 0#16 ∧ State.reset.pc = 0x200#16 ∧ State.reset.stack = [] ∧
  (∀ row col, State.reset.pixel row col = false) ∧ State.reset.key = 0#8 ∧ (∀ a, State.reset.mem.byteAt a = 0#8) ∧
  construct [] = .ok State.reset

/-- Construction puts the image at 0x200 byte for byte, every other byte is 0x00, and everything else is as after reset. Derived:
70_reset_and_hazards.md section 1 (the zero fill is the spec's decision D3, log entry 6). -/
def Obligations.ConstructLoadsTheImage : Prop :=
  ∀ image : List Byte, image.length ≤ 3584 → ∃ s, construct image = .ok s ∧
    (∀ k b, image[k]? = some b → s.mem.byteAt (0x200 + k) = b) ∧
    (∀ a, a < 0x200 ∨ 0x200 + image.length ≤ a → s.mem.byteAt a = 0#8) ∧
    s = { State.reset with mem := s.mem } ∧ s.wf = true

/-- Construction refuses an image longer than 3584 bytes. Derived: 70_reset_and_hazards.md section 1 (the spec's decision D4). -/
def Obligations.ConstructRefusesALongImage : Prop :=
  ∀ image : List Byte, 3584 < image.length → construct image = .error (.imageTooLong image.length)

/-- Every step keeps the ranges of 10_state.md section 16, from every state that has them. Derived: the spec marks the ranges as its own
inference. -/
def Obligations.StepKeepsTheReachableRanges : Prop :=
  ∀ s t : State, s.InRange → step s = .next t → t.InRange

/-- Every constructed machine starts in the ranges of 10_state.md section 16 and well-formed. Derived: 70_reset_and_hazards.md section
1. -/
def Obligations.ConstructedStateIsInRange : Prop :=
  State.reset.InRange ∧ State.reset.wf = true ∧ ∀ (image : List Byte) (s : State), construct image = .ok s → s.InRange ∧ s.wf = true

/-- Every step keeps a state well-formed: the stack within 16 entries and memory in its canonical form. Derived: 10_state.md section 6
and 20_memory.md section 4. -/
def Obligations.StepKeepsTheStateWellFormed : Prop :=
  ∀ s t : State, s.wf = true → step s = .next t → t.wf = true

/-- In every state the host can bring a constructed machine into, by any steps, key writes and random answers, the ranges of 10_state.md
section 16 hold and memory is the constructed one. Derived: 10_state.md section 16 and 20_memory.md section 4, inferences the spec
marks as its own (host moves are log entry 4). -/
def Obligations.ReachableStatesAreInRangeWithTheirImage : Prop :=
  ∀ (image : List Byte) (s : State), Reachable image s →
    s.InRange ∧ s.wf = true ∧ ∃ s₀, construct image = .ok s₀ ∧ s.mem = s₀.mem

/-- A run that has ended successfully stays ended: whatever the host does next, the state is again a successful end, and it is never
also a failure. Derived: 70_reset_and_hazards.md section 5 and 41_system.md. -/
def Obligations.SuccessfulEndIsFinal : Prop :=
  ∀ (image : List Byte) (s : State), EndsHalted image s →
    ¬ EndsFatal image s ∧ ∀ moves : List HostMove, EndsHalted image (List.foldl State.move s moves)

/-- The host's loader: with an instruction's word put where the next step fetches, that step runs the instruction. Derived:
20_memory.md section 2 (`withFetchWord` is the model's own, log entry 5). -/
def Obligations.StepRunsThePlacedWord : Prop :=
  ∀ (s : State) (w : Word) (i : Instr), s.wf = true → decodeWord w = .ok i →
    step (s.withFetchWord 16 w.toNat) = exec i (s.withFetchWord 16 w.toNat) ∧ (s.withFetchWord 16 w.toNat).wf = true

/-- Between two steps the host writes the key latch and the random port and nothing else, the last key written stands, and its views
show the state as it is. Derived: 70_reset_and_hazards.md section 2 (the random port's form is the model's DESIGN CHOICE, log entry
1). -/
def Obligations.HostMovesTouchOnlyTheirPorts : Prop :=
  ∀ (s : State) (a b : Byte) (bs : List Byte),
    s.move (.keyIn b) = { s with key := b } ∧ (s.move (.keyIn a)).move (.keyIn b) = s.move (.keyIn b) ∧
    s.move (.supplyRandom bs) = { s with rndIn := s.rndIn ++ bs } ∧
    s.dispOut = s.disp ∧ s.debugDump = ⟨s.pc, s.index, s.v⟩
end

