-- ==== Sys2Proof/Laws/Decode.lean ====
section
/-! SUPPORT. Encoded words as numbers, the decoder's fields of an encoded word, and dispatch by the high nibble. -/

namespace Sys2Proof.Laws
open Sys2Proof

/-- The operand types already carry the ranges of the fields. -/
theorem wellFormed (i : Instr) : i.WellFormed = true := by
  cases i <;> simp [Instr.WellFormed, operandsFit, Instr.operands] <;> omega

/-! ## Encoded words as numbers (30_encoding.md R61) -/

theorem encAddr_toNat (op : Nibble) (a : Addr12) : (encAddr op a).toNat = op.toNat * 4096 + a.toNat := by
  rw [encAddr, BitVec.toNat_append, ← Nat.shiftLeft_add_eq_or_of_lt a.isLt, Nat.shiftLeft_eq]

theorem regNibble_toNat (r : RegIx) : (regNibble r).toNat = r.val :=
  rfl

theorem encRegImm_toNat (op : Nibble) (x : RegIx) (k : Byte) :
    (encRegImm op x k).toNat = op.toNat * 4096 + x.val * 256 + k.toNat := by
  rw [encRegImm, ← encAddr, encAddr_toNat, BitVec.toNat_append, ← Nat.shiftLeft_add_eq_or_of_lt k.isLt, Nat.shiftLeft_eq,
    regNibble_toNat]
  omega

theorem encRegReg_toNat (op : Nibble) (x y : RegIx) (n : Nibble) :
    (encRegReg op x y n).toNat = op.toNat * 4096 + x.val * 256 + y.val * 16 + n.toNat := by
  have h : (regNibble y ++ n : Byte).toNat = y.val * 16 + n.toNat := by
    rw [BitVec.toNat_append, ← Nat.shiftLeft_add_eq_or_of_lt n.isLt, Nat.shiftLeft_eq, regNibble_toNat]
  rw [encRegReg, ← encRegImm, encRegImm_toNat, h]
  omega

/-! ## The fields of an encoded word -/

theorem fieldsOf_encAddr (op : Nibble) (a : Addr12) :
    (fieldsOf (encAddr op a)).op = op ∧ (fieldsOf (encAddr op a)).address = a := by
  have ha := a.isLt
  constructor <;> apply BitVec.eq_of_toNat_eq <;>
    simp only [fieldsOf, BitVec.extractLsb'_toNat, encAddr_toNat, Nat.shiftRight_eq_div_pow] <;> omega

theorem fieldsOf_encRegImm (op : Nibble) (x : RegIx) (k : Byte) :
    (fieldsOf (encRegImm op x k)).op = op ∧ (fieldsOf (encRegImm op x k)).regX = x ∧
      (fieldsOf (encRegImm op x k)).immediate = k := by
  have hk := k.isLt
  refine ⟨BitVec.eq_of_toNat_eq ?_, Fin.ext ?_, BitVec.eq_of_toNat_eq ?_⟩ <;>
    simp only [fieldsOf, BitVec.val_toFin, BitVec.extractLsb'_toNat, encRegImm_toNat,
      Nat.shiftRight_eq_div_pow] <;> omega

theorem fieldsOf_encRegReg (op : Nibble) (x y : RegIx) (n : Nibble) :
    (fieldsOf (encRegReg op x y n)).op = op ∧ (fieldsOf (encRegReg op x y n)).regX = x ∧
      (fieldsOf (encRegReg op x y n)).regY = y ∧ (fieldsOf (encRegReg op x y n)).subop = n := by
  have hn := n.isLt
  refine ⟨BitVec.eq_of_toNat_eq ?_, Fin.ext ?_, Fin.ext ?_, BitVec.eq_of_toNat_eq ?_⟩ <;>
    simp only [fieldsOf, BitVec.val_toFin, BitVec.extractLsb'_toNat, encRegReg_toNat,
      Nat.shiftRight_eq_div_pow] <;> omega

/-! ## The masks of the opcode table -/

/-- `W & 0xF000` keeps the high nibble. -/
theorem and_opMask (w : Word) : w &&& 0xF000#16 = BitVec.ofNat 16 (w.toNat / 4096 * 4096) := by
  have h : w &&& 0xF000#16 = (w >>> 12) <<< 12 := by
    apply BitVec.eq_of_getLsbD_eq
    intro k hk
    interval_cases k <;> simp
  apply BitVec.eq_of_toNat_eq
  have := w.isLt
  rw [h, BitVec.toNat_shiftLeft, BitVec.toNat_ushiftRight, Nat.shiftRight_eq_div_pow, Nat.shiftLeft_eq, BitVec.toNat_ofNat]

/-- `W & 0xF0FF` keeps the high nibble and the low byte. -/
theorem and_keyMask (w : Word) : w &&& 0xF0FF#16 = BitVec.ofNat 16 (w.toNat / 4096 * 4096 + w.toNat % 256) := by
  have h : w &&& 0xF0FF#16 = (w &&& 0xF000#16) ||| (w &&& 0x00FF#16) := by
    rw [← BitVec.and_or_distrib_left]
    rfl
  have h2 : w &&& 0x00FF#16 = BitVec.ofNat 16 (w.toNat % 256) := by
    apply BitVec.eq_of_toNat_eq
    rw [BitVec.toNat_and, show (0x00FF#16 : Word).toNat = 2 ^ 8 - 1 from rfl, Nat.and_two_pow_sub_one_eq_mod, BitVec.toNat_ofNat]
    omega
  have h3 : (w &&& 0xF000#16) &&& (w &&& 0x00FF#16) = 0#16 := by
    apply BitVec.eq_of_getLsbD_eq
    intro k hk
    interval_cases k <;> simp
  have hd := BitVec.add_eq_or_of_and_eq_zero _ _ h3
  rw [h, ← hd, and_opMask, h2, ← BitVec.ofNat_add]

/-! ## Dispatch -/

/-- A word whose high nibble is not 0 is none of the three full words, so `op` alone, or `op` and the low byte, decide
(30_encoding.md R56). -/
theorem not_fullWord {w : Word} (h : (fieldsOf w).op ≠ 0x0#4) : w ≠ 0x0000#16 ∧ w ≠ 0x00E0#16 ∧ w ≠ 0x00EE#16 := by
  refine ⟨?_, ?_, ?_⟩ <;> rintro rfl <;> exact h rfl

/-- The high nibble as a number. -/
theorem op_eq_iff {w : Word} {n : Nibble} : (fieldsOf w).op = n ↔ w.toNat / 4096 = n.toNat := by
  have := w.isLt
  rw [← BitVec.toNat_inj, fieldsOf, BitVec.extractLsb'_toNat, Nat.shiftRight_eq_div_pow]
  omega

/-- The low byte as a number. -/
theorem immediate_eq_iff {w : Word} {k : Byte} : (fieldsOf w).immediate = k ↔ w.toNat % 256 = k.toNat := by
  rw [← BitVec.toNat_inj, fieldsOf, BitVec.extractLsb'_toNat, Nat.shiftRight_zero]

/-- What the dispatcher can answer for a word, each with its condition in numbers (40_decode_dispatch.md R77). -/
inductive Dispatched (w : Word) : Except DecodeError Instr → Prop where
  | halt (h : w.toNat = 0x0000) : Dispatched w (.ok .halt)
  | cls (h : w.toNat = 0x00E0) : Dispatched w (.ok .cls)
  | ret (h : w.toNat = 0x00EE) : Dispatched w (.ok .ret)
  | jp (h : w.toNat / 4096 = 1) : Dispatched w (.ok (.jp (fieldsOf w).address))
  | call (h : w.toNat / 4096 = 2) : Dispatched w (.ok (.call (fieldsOf w).address))
  | seImm (h : w.toNat / 4096 = 3) : Dispatched w (.ok (.seImm (fieldsOf w).regX (fieldsOf w).immediate))
  | sneImm (h : w.toNat / 4096 = 4) : Dispatched w (.ok (.sneImm (fieldsOf w).regX (fieldsOf w).immediate))
  | seReg (h : w.toNat / 4096 = 5) : Dispatched w (.ok (.seReg (fieldsOf w).regX (fieldsOf w).regY))
  | ldImm (h : w.toNat / 4096 = 6) : Dispatched w (.ok (.ldImm (fieldsOf w).regX (fieldsOf w).immediate))
  | addImm (h : w.toNat / 4096 = 7) : Dispatched w (.ok (.addImm (fieldsOf w).regX (fieldsOf w).immediate))
  | sneReg (h : w.toNat / 4096 = 9) : Dispatched w (.ok (.sneReg (fieldsOf w).regX (fieldsOf w).regY))
  | ldI (h : w.toNat / 4096 = 10) : Dispatched w (.ok (.ldI (fieldsOf w).address))
  | jpV0 (h : w.toNat / 4096 = 11) : Dispatched w (.ok (.jpV0 (fieldsOf w).address))
  | rnd (h : w.toNat / 4096 = 12) : Dispatched w (.ok (.rnd (fieldsOf w).regX (fieldsOf w).immediate))
  | drw (h : w.toNat / 4096 = 13) : Dispatched w (.ok (.drw (fieldsOf w).regX (fieldsOf w).regY (fieldsOf w).subop))
  | skp (h : w.toNat / 4096 = 14) (hk : w.toNat % 256 = 0x9E) : Dispatched w (.ok (.skp (fieldsOf w).regX))
  | sknp (h : w.toNat / 4096 = 14) (hk : w.toNat % 256 = 0xA1) : Dispatched w (.ok (.sknp (fieldsOf w).regX))
  | unknown
      (h : (w.toNat / 4096 = 0 ∧ w.toNat ≠ 0x0000 ∧ w.toNat ≠ 0x00E0 ∧ w.toNat ≠ 0x00EE) ∨ w.toNat / 4096 = 8 ∨
        (w.toNat / 4096 = 14 ∧ w.toNat % 256 ≠ 0x9E ∧ w.toNat % 256 ≠ 0xA1) ∨ w.toNat / 4096 = 15) :
      Dispatched w (.error (.unknownOpcode w))

/-- The dispatcher's answer, taken apart once. -/
theorem dispatched (w : Word) : Dispatched w (decodeWord w) := by
  have hlt := w.isLt
  have full : ∀ n < 65536, w ≠ BitVec.ofNat 16 n → w.toNat ≠ n := fun n hn h e =>
    h (by rw [← BitVec.toNat_inj, BitVec.toNat_ofNat, Nat.mod_eq_of_lt hn, e])
  rw [decodeWord]
  by_cases h0 : w = 0x0000#16
  · rw [if_pos h0]; exact .halt (h0 ▸ rfl)
  rw [if_neg h0]
  by_cases h1 : w = 0x00E0#16
  · rw [if_pos h1]; exact .cls (h1 ▸ rfl)
  rw [if_neg h1]
  by_cases h2 : w = 0x00EE#16
  · rw [if_pos h2]; exact .ret (h2 ▸ rfl)
  rw [if_neg h2]
  by_cases h3 : (fieldsOf w).op = 1#4
  · rw [if_pos h3]; exact .jp (op_eq_iff.1 h3)
  rw [if_neg h3]
  by_cases h4 : (fieldsOf w).op = 2#4
  · rw [if_pos h4]; exact .call (op_eq_iff.1 h4)
  rw [if_neg h4]
  by_cases h5 : (fieldsOf w).op = 3#4
  · rw [if_pos h5]; exact .seImm (op_eq_iff.1 h5)
  rw [if_neg h5]
  by_cases h6 : (fieldsOf w).op = 4#4
  · rw [if_pos h6]; exact .sneImm (op_eq_iff.1 h6)
  rw [if_neg h6]
  by_cases h7 : (fieldsOf w).op = 5#4
  · rw [if_pos h7]; exact .seReg (op_eq_iff.1 h7)
  rw [if_neg h7]
  by_cases h8 : (fieldsOf w).op = 6#4
  · rw [if_pos h8]; exact .ldImm (op_eq_iff.1 h8)
  rw [if_neg h8]
  by_cases h9 : (fieldsOf w).op = 7#4
  · rw [if_pos h9]; exact .addImm (op_eq_iff.1 h9)
  rw [if_neg h9]
  by_cases h10 : (fieldsOf w).op = 9#4
  · rw [if_pos h10]; exact .sneReg (op_eq_iff.1 h10)
  rw [if_neg h10]
  by_cases h11 : (fieldsOf w).op = 10#4
  · rw [if_pos h11]; exact .ldI (op_eq_iff.1 h11)
  rw [if_neg h11]
  by_cases h12 : (fieldsOf w).op = 11#4
  · rw [if_pos h12]; exact .jpV0 (op_eq_iff.1 h12)
  rw [if_neg h12]
  by_cases h13 : (fieldsOf w).op = 12#4
  · rw [if_pos h13]; exact .rnd (op_eq_iff.1 h13)
  rw [if_neg h13]
  by_cases h14 : (fieldsOf w).op = 13#4
  · rw [if_pos h14]; exact .drw (op_eq_iff.1 h14)
  rw [if_neg h14]
  by_cases h15 : (fieldsOf w).op = 14#4 ∧ (fieldsOf w).immediate = 0x9E#8
  · rw [if_pos h15]; exact .skp (op_eq_iff.1 h15.1) (immediate_eq_iff.1 h15.2)
  rw [if_neg h15]
  by_cases h16 : (fieldsOf w).op = 14#4 ∧ (fieldsOf w).immediate = 0xA1#8
  · rw [if_pos h16]; exact .sknp (op_eq_iff.1 h16.1) (immediate_eq_iff.1 h16.2)
  rw [if_neg h16]
  replace h0 := full 0x0000 (by omega) h0
  replace h1 := full 0x00E0 (by omega) h1
  replace h2 := full 0x00EE (by omega) h2
  rw [op_eq_iff] at h3 h4 h5 h6 h7 h8 h9 h10 h11 h12 h13 h14
  rw [op_eq_iff, immediate_eq_iff] at h15 h16
  clear full
  refine .unknown ?_
  simp only [BitVec.toNat_ofNat, Nat.reduceMod, Nat.reducePow] at h3 h4 h5 h6 h7 h8 h9 h10 h11 h12 h13 h14 h15 h16 hlt
  omega

/-- The bytes a word is stored as decode to what the word decodes to. -/
theorem decode_pair (hi lo : Byte) (rest : List Byte) :
    decode (hi :: lo :: rest) = (decodeWord (wordOfBytes hi lo)).map fun i => (i, rest) := by
  rw [decode]
  cases decodeWord (wordOfBytes hi lo) <;> rfl

end Sys2Proof.Laws
end

