-- ==== Sys2Proof/Laws/Display.lean ====
section
/-! SUPPORT. What a draw does, said once: which pixels it XORs, and when it collides (42_display.md R102 to R106). -/

namespace Sys2Proof.Laws
open Sys2Proof Sys2Proof.Machine

/-- `f` draws the bits `β`: it XORs each pixel with its bit, and remembers a collision when a pixel that was on has bit 1. -/
def Draws (f : Display × Bool → Display × Bool) (β : Fin 32 → Fin 64 → Bool) : Prop :=
  ∀ acc : Display × Bool,
    (∀ (r : Fin 32) (c : Fin 64), (f acc).1[r][c] = (acc.1[r][c] ^^ β r c)) ∧
    ((f acc).2 = true ↔ acc.2 = true ∨ ∃ (r : Fin 32) (c : Fin 64), acc.1[r][c] = true ∧ β r c = true)

/-- Drawing nothing. -/
theorem draws_id : Draws (fun a => a) (fun _ _ => false) := fun acc => by simp

/-- Two draws that share no pixel are one draw of both (the order does not matter, 42_display.md R106(f)). -/
theorem Draws.comp {f g : Display × Bool → Display × Bool} {β γ : Fin 32 → Fin 64 → Bool} (hf : Draws f β) (hg : Draws g γ)
    (hd : ∀ r c, β r c = true → γ r c = false) : Draws (fun a => g (f a)) (fun r c => β r c || γ r c) := fun acc => by
  obtain ⟨hf1, hf2⟩ := hf acc
  obtain ⟨hg1, hg2⟩ := hg (f acc)
  constructor
  · intro r c
    have := hd r c
    rw [hg1, hf1]
    cases hβ : β r c <;> simp_all
  · rw [hg2, hf2, or_assoc]
    refine or_congr Iff.rfl ⟨?_, ?_⟩
    · rintro (⟨r, c, h1, h2⟩ | ⟨r, c, h1, h2⟩)
      · exact ⟨r, c, h1, by simp [h2]⟩
      · refine ⟨r, c, ?_, by simp [h2]⟩
        have := hd r c
        rw [hf1] at h1
        cases hβ : β r c <;> simp_all
    · rintro ⟨r, c, h1, h2⟩
      have := hd r c
      cases hβ : β r c
      · exact .inr ⟨r, c, by rw [hf1, hβ]; simpa using h1, by simpa [hβ] using h2⟩
      · exact .inl ⟨r, c, h1, hβ⟩

/-- The same function and the same bits. -/
theorem Draws.congr {f g : Display × Bool → Display × Bool} {β γ : Fin 32 → Fin 64 → Bool} (hf : Draws f β) (hfg : ∀ a, g a = f a)
    (hβ : ∀ r c, γ r c = β r c) : Draws g γ := fun acc => by
  simpa only [hfg, hβ] using hf acc

/-- One pixel of a draw touches that pixel alone, and nothing outside the buffer (42_display.md R104, R105). -/
theorem draws_xorPixel (bit : Bool) (row col : Nat) :
    Draws (xorPixel bit row col) (fun r c => decide (r.val = row ∧ c.val = col) && bit) := fun acc => by
  by_cases h : row < 32 ∧ col < 64
  · constructor
    · intro r c
      by_cases hr : r.val = row
      · by_cases hc : c.val = col
        · subst hr; subst hc
          simp [xorPixel]
        · subst hr
          simp [xorPixel, h, hc, Vector.getElem_set_ne _ _ (Ne.symm hc)]
      · simp [xorPixel, h, hr, Vector.getElem_set_ne _ _ (Ne.symm hr)]
    · simp only [xorPixel, dif_pos h, collides]
      rw [Bool.or_eq_true]
      refine or_congr Iff.rfl ⟨fun hx => ⟨⟨row, h.1⟩, ⟨col, h.2⟩, ?_⟩, ?_⟩
      · revert hx
        cases (acc.1[row]'h.1)[col]'h.2 <;> cases bit <;> simp
      · rintro ⟨r, c, h1, h2⟩
        simp only [Bool.and_eq_true, decide_eq_true_eq] at h2
        obtain ⟨⟨rfl, rfl⟩, rfl⟩ := h2
        simpa using h1
  · have hno : ∀ (r : Fin 32) (c : Fin 64), ¬ (r.val = row ∧ c.val = col) := fun r c e => h (by omega)
    simp [xorPixel, h, hno]

/-- The bit of one sprite row that falls on a pixel, of its first `n` columns. -/
def rowBit (b : Byte) (x row n : Nat) (r : Fin 32) (c : Fin 64) : Bool :=
  decide (r.val = row ∧ x ≤ c.val ∧ c.val < x + n) && b.getLsbD (7 - (c.val - x))

/-- The first `n` pixels of a sprite row. -/
theorem draws_rowPrefix (b : Byte) (x row : Nat) : ∀ n : Nat,
    Draws (fun a => (List.range n).foldl (fun a c => xorPixel (b.getLsbD (7 - c)) row (x + c) a) a) (rowBit b x row n)
  | 0 => draws_id.congr (fun _ => rfl) fun r c => by
    simp [rowBit]
  | n + 1 => by
    refine ((draws_rowPrefix b x row n).comp (draws_xorPixel (b.getLsbD (7 - n)) row (x + n)) ?_).congr
      (fun a => by rw [List.range_succ, List.foldl_append]; rfl) ?_
    · intro r c h
      simp only [rowBit, Bool.and_eq_true, decide_eq_true_eq] at h
      have : ¬ (r.val = row ∧ c.val = x + n) := by omega
      simp [this]
    · intro r c
      by_cases hc : r.val = row ∧ c.val = x + n
      · obtain ⟨hr, hc⟩ := hc
        simp [rowBit, hr, hc]
      · have h1 : (r.val = row ∧ x ≤ c.val ∧ c.val < x + (n + 1)) ↔ (r.val = row ∧ x ≤ c.val ∧ c.val < x + n) := by omega
        simp [rowBit, h1, hc]

/-- One sprite row draws its eight bits, the most significant at the lowest column. -/
theorem draws_drawRow (b : Byte) (x row : Nat) : Draws (drawRow b x row) (rowBit b x row 8) :=
  draws_rowPrefix b x row 8

/-- The bit of a sprite, given by its bytes, that falls on a pixel. -/
def spriteRowsBit (bs : List Byte) (x y : Nat) (r : Fin 32) (c : Fin 64) : Bool :=
  decide (y ≤ r.val ∧ r.val < y + bs.length ∧ x ≤ c.val ∧ c.val < x + 8) &&
    ((bs[r.val - y]?).getD 0#8).getLsbD (7 - (c.val - x))

/-- A sprite draws its bits, and no other pixel changes. -/
theorem draws_drawSprite (x : Nat) : ∀ (bs : List Byte) (y : Nat), Draws (drawSprite x y bs) (spriteRowsBit bs x y)
  | [], y => draws_id.congr (fun _ => rfl) fun r c => by
    have : ¬ (y ≤ r.val ∧ r.val < y + ([] : List Byte).length ∧ x ≤ c.val ∧ c.val < x + 8) := by
      rw [List.length_nil]; omega
    simp only [spriteRowsBit, this, decide_false, Bool.false_and]
  | b :: bs, y => by
    refine ((draws_drawRow b x y).comp (draws_drawSprite x bs (y + 1)) ?_).congr (fun _ => rfl) ?_
    · intro r c h
      simp only [rowBit, Bool.and_eq_true, decide_eq_true_eq] at h
      have : ¬ (y + 1 ≤ r.val ∧ r.val < y + 1 + bs.length ∧ x ≤ c.val ∧ c.val < x + 8) := by omega
      simp only [spriteRowsBit, this, decide_false, Bool.false_and]
    · intro r c
      rcases Nat.lt_trichotomy r.val y with h | h | h
      · have h1 : ¬ y ≤ r.val := by omega
        have h2 : ¬ y + 1 ≤ r.val := by omega
        have h3 : r.val ≠ y := by omega
        simp [spriteRowsBit, rowBit, h1, h2, h3]
      · have h2 : ¬ y + 1 ≤ y := by omega
        simp [spriteRowsBit, rowBit, h, h2]
      · have h3 : r.val ≠ y := by omega
        obtain ⟨d, hd⟩ : ∃ d, r.val = y + 1 + d := ⟨r.val - (y + 1), by omega⟩
        have e1 : y + 1 + d - y = d + 1 := by omega
        have e2 : y + 1 + d - (y + 1) = d := by omega
        have e3 : (y ≤ y + 1 + d ∧ y + 1 + d < y + (bs.length + 1) ∧ x ≤ c.val ∧ c.val < x + 8) ↔
            (y + 1 ≤ y + 1 + d ∧ y + 1 + d < y + 1 + bs.length ∧ x ≤ c.val ∧ c.val < x + 8) := by omega
        have e4 : y + 1 + d ≠ y := by omega
        simp only [spriteRowsBit, rowBit, hd, e1, e2, e3, e4, List.length_cons, List.getElem?_cons_succ, false_and, decide_false,
          Bool.false_and, Bool.false_or]

end Sys2Proof.Laws
end

