-- ==== Sys2Proof/Laws/Memory.lean ====
section
/-! SUPPORT. The memory laws: read after write, the canonical form is kept, and memories that read alike are equal. -/

namespace Sys2Proof.Laws
open Sys2Proof Sys2Proof.Machine

theorem wfFrom_cons (lo b : Nat) (u : Byte) (m : Memory) :
    Memory.wfFrom lo ((b, u) :: m) = true ↔
      lo ≤ b ∧ b < Config.memSize ∧ u ≠ Config.blankByte ∧ Memory.wfFrom (b + 1) m = true := by
  simp [Memory.wfFrom, and_assoc]

/-- A lower bound may be lowered. -/
theorem wfFrom_mono {lo lo' : Nat} (h : lo' ≤ lo) : ∀ {m : Memory}, m.wfFrom lo = true → m.wfFrom lo' = true
  | [], _ => rfl
  | (_, _) :: _, hm => by
    rw [wfFrom_cons] at hm ⊢
    exact ⟨h.trans hm.1, hm.2⟩

/-- Below its lower bound a canonical memory lists nothing. -/
theorem byteAt_of_lt {lo a : Nat} (h : a < lo) : ∀ {m : Memory}, m.wfFrom lo = true → m.byteAt a = Config.blankByte
  | [], _ => rfl
  | (b, u) :: m, hm => by
    rw [wfFrom_cons] at hm
    have hb : b ≠ a := by omega
    simp only [Memory.byteAt, if_neg hb]
    exact byteAt_of_lt (by omega) hm.2.2.2

/-- Read after write (20_memory.md R32): the written byte at its address, every other byte as before. -/
theorem byteAt_write {lo : Nat} (a c : Nat) (v : Byte) : ∀ {m : Memory}, m.wfFrom lo = true →
    (m.write a v).byteAt c = if c = a then v else m.byteAt c
  | [], _ => by
    by_cases hv : v = Config.blankByte <;> by_cases hc : c = a <;>
      simp [Memory.write, Memory.byteAt, hv, hc, Ne.symm]
  | (b, u) :: m, hm => by
    rw [wfFrom_cons] at hm
    have ih := byteAt_write a c v hm.2.2.2
    rcases Nat.lt_trichotomy b a with hb | hb | hb
    · simp only [Memory.write, if_pos hb, Memory.byteAt, ih]
      by_cases hc : c = a <;> by_cases hbc : b = c <;> simp [hc, hbc] <;> omega
    · subst hb
      have hlow : Memory.byteAt m b = Config.blankByte := byteAt_of_lt (Nat.lt_succ_self b) hm.2.2.2
      by_cases hv : v = Config.blankByte <;> by_cases hc : c = b <;>
        simp [Memory.write, Memory.byteAt, hv, hc, hlow, eq_comm (a := b)]
    · have h1 : ¬ b < a := by omega
      have h2 : b ≠ a := by omega
      have hlow : Memory.byteAt m a = Config.blankByte :=
        byteAt_of_lt (lo := b + 1) (by omega) hm.2.2.2
      by_cases hv : v = Config.blankByte <;> by_cases hc : c = a <;>
        simp [Memory.write, Memory.byteAt, h1, h2, hv, hc, hlow, eq_comm (a := a)]

/-- A write keeps the canonical form. -/
theorem wfFrom_write {lo a : Nat} (v : Byte) (hlo : lo ≤ a) (ha : a < Config.memSize) : ∀ {m : Memory},
    m.wfFrom lo = true → (m.write a v).wfFrom lo = true
  | [], _ => by
    by_cases hv : v = Config.blankByte
    · simp [Memory.write, hv, Memory.wfFrom]
    · simp [Memory.write, hv, hlo, ha, Memory.wfFrom]
  | (b, u) :: m, hm => by
    have hm' := (wfFrom_cons ..).1 hm
    rcases Nat.lt_trichotomy b a with hb | hb | hb
    · simp only [Memory.write, if_pos hb, wfFrom_cons]
      exact ⟨hm'.1, hm'.2.1, hm'.2.2.1, wfFrom_write v hb ha hm'.2.2.2⟩
    · subst hb
      by_cases hv : v = Config.blankByte
      · simpa [Memory.write, hv] using wfFrom_mono (by omega) hm'.2.2.2
      · simpa [Memory.write, hv, wfFrom_cons, hlo, ha] using hm'.2.2.2
    · have h1 : ¬ b < a := by omega
      have h2 : b ≠ a := by omega
      by_cases hv : v = Config.blankByte
      · simpa [Memory.write, h1, h2, hv] using hm
      · simp only [Memory.write, if_neg h1, if_neg h2, if_neg hv, wfFrom_cons]
        exact ⟨hlo, ha, hv, hb, hm'.2⟩

/-- Loading bytes inside the address space keeps the canonical form. -/
theorem wf_load : ∀ (bs : List Byte) (a : Nat) (m : Memory), a + bs.length ≤ Config.memSize → m.wf = true →
    (m.load a bs).wf = true
  | [], _, _, _, hm => hm
  | b :: bs, a, m, ha, hm => by
    simp only [List.length_cons] at ha
    exact wf_load bs (a + 1) (m.write a b) (by omega) (wfFrom_write b (Nat.zero_le a) (by omega) hm)

/-- What a load leaves (70_reset_and_hazards.md R211): the bytes at their addresses, every other byte as before. -/
theorem byteAt_load : ∀ (bs : List Byte) (a : Nat) (m : Memory) (c : Nat), a + bs.length ≤ Config.memSize → m.wf = true →
    (m.load a bs).byteAt c = if a ≤ c then (bs[c - a]?).getD (m.byteAt c) else m.byteAt c
  | [], a, m, c, _, _ => by simp [Memory.load]
  | b :: bs, a, m, c, ha, hm => by
    simp only [List.length_cons] at ha
    have hset : (m.write a b).wf = true := wfFrom_write b (Nat.zero_le a) (by omega) hm
    rw [Memory.load, byteAt_load bs (a + 1) (m.write a b) c (by omega) hset, byteAt_write a c b hm]
    rcases Nat.lt_trichotomy c a with hc | hc | hc
    · rw [if_neg (by omega), if_neg (by omega), if_neg (by omega)]
    · subst hc; simp
    · rw [if_pos (by omega), if_neg (by omega), if_pos (by omega)]
      obtain ⟨d, rfl⟩ : ∃ d, c = a + 1 + d := ⟨c - (a + 1), by omega⟩
      simp [show a + 1 + d - a = d + 1 by omega]

/-- Canonical memories that read alike at every address are equal data. -/
theorem eq_of_byteAt_eq {lo : Nat} : ∀ {m n : Memory}, m.wfFrom lo = true → n.wfFrom lo = true →
    (∀ a, m.byteAt a = n.byteAt a) → m = n
  | [], [], _, _, _ => rfl
  | [], (b, u) :: n, _, hn, h => by
    rw [wfFrom_cons] at hn
    exact absurd (by simpa [Memory.byteAt] using (h b).symm) hn.2.2.1
  | (b, u) :: m, [], hm, _, h => by
    rw [wfFrom_cons] at hm
    exact absurd (by simpa [Memory.byteAt] using h b) hm.2.2.1
  | (b, u) :: m, (c, w) :: n, hm, hn, h => by
    have hm' := (wfFrom_cons ..).1 hm
    have hn' := (wfFrom_cons ..).1 hn
    have hb : b = c := by
      rcases Nat.lt_trichotomy b c with hbc | hbc | hbc
      · have h1 := h b
        rw [byteAt_of_lt hbc ((wfFrom_cons ..).2 ⟨Nat.le_refl c, hn'.2⟩)] at h1
        exact absurd (by simpa [Memory.byteAt] using h1) hm'.2.2.1
      · exact hbc
      · have h1 := h c
        rw [byteAt_of_lt hbc ((wfFrom_cons ..).2 ⟨Nat.le_refl b, hm'.2⟩)] at h1
        exact absurd (by simpa [Memory.byteAt] using h1.symm) hn'.2.2.1
    subst hb
    have hu : u = w := by simpa [Memory.byteAt] using h b
    subst hu
    have htail : m = n := by
      refine eq_of_byteAt_eq hm'.2.2.2 hn'.2.2.2 fun a => ?_
      by_cases ha : b = a
      · subst ha
        rw [byteAt_of_lt (Nat.lt_succ_self b) hm'.2.2.2, byteAt_of_lt (Nat.lt_succ_self b) hn'.2.2.2]
      · simpa [Memory.byteAt, ha] using h a
    rw [htail]

/-- `MemRead(addr, 2)` inside memory. -/
theorem read2_of_lt (m : Memory) {a : Nat} (h : a + 1 < Config.memSize) :
    m.read2 a = .ok (wordOfBytes (m.byteAt a) (m.byteAt (a + 1))) := by
  rw [Memory.read2, if_neg (by omega), if_neg (by omega)]

/-- `MemRead(addr, 2)` with a byte outside memory reports the lowest such address. -/
theorem read2_of_le (m : Memory) {a : Nat} (h : Config.memSize ≤ a + 1) :
    m.read2 a = .error (max a Config.memSize) := by
  rw [Memory.read2]
  split
  · rw [max_eq_left ‹_›]
  · rw [max_eq_right (by omega)]
    congr 1
    omega

/-- The sprite bytes inside memory. -/
theorem readBytes_of_le (m : Memory) : ∀ (n a : Nat), n = 0 ∨ a + n ≤ Config.memSize →
    m.readBytes a n = .ok ((List.range n).map fun r => m.byteAt (a + r))
  | 0, _, _ => rfl
  | n + 1, a, h => by
    have ha : a < Config.memSize := by omega
    rw [Memory.readBytes, Memory.read1, if_pos ha]
    simp only [readBytes_of_le m n (a + 1) (by omega), List.range_succ_eq_map, List.map_cons, List.map_map, Nat.add_zero]
    congr 2
    exact List.map_congr_left fun r _ => by simp [Nat.add_assoc, Nat.add_comm 1]

/-- Sprite bytes not all inside memory: the lowest address outside (42_display.md R103). -/
theorem readBytes_of_lt (m : Memory) : ∀ (n a : Nat), 1 ≤ n → Config.memSize ≤ a + n - 1 →
    m.readBytes a n = .error (max a Config.memSize)
  | 0, _, h, _ => by omega
  | n + 1, a, _, h => by
    rw [Memory.readBytes, Memory.read1]
    by_cases ha : a < Config.memSize
    · rw [if_pos ha]
      simp only [readBytes_of_lt m n (a + 1) (by omega) (by omega)]
      rw [max_eq_right (by omega), max_eq_right (by omega)]
    · rw [if_neg ha, max_eq_left (by omega)]

end Sys2Proof.Laws
end

