-- ==== Sys2Proof/Laws/State.lean ====
section
/-! SUPPORT. One lemma per field of State per named update, true by definition, and the reads of a register after a write. -/

namespace Sys2Proof.Laws
open Sys2Proof Sys2Proof.Machine

variable (s : State)

@[simp] theorem setReg_v (r : RegIx) (b : Byte) : (s.setReg r b).v = s.v.set r b := rfl
@[simp] theorem setReg_index (r : RegIx) (b : Byte) : (s.setReg r b).index = s.index := rfl
@[simp] theorem setReg_pc (r : RegIx) (b : Byte) : (s.setReg r b).pc = s.pc := rfl
@[simp] theorem setReg_stack (r : RegIx) (b : Byte) : (s.setReg r b).stack = s.stack := rfl
@[simp] theorem setReg_disp (r : RegIx) (b : Byte) : (s.setReg r b).disp = s.disp := rfl
@[simp] theorem setReg_key (r : RegIx) (b : Byte) : (s.setReg r b).key = s.key := rfl
@[simp] theorem setReg_mem (r : RegIx) (b : Byte) : (s.setReg r b).mem = s.mem := rfl
@[simp] theorem setReg_rndIn (r : RegIx) (b : Byte) : (s.setReg r b).rndIn = s.rndIn := rfl
@[simp] theorem setReg_draws (r : RegIx) (b : Byte) : (s.setReg r b).draws = s.draws := rfl

@[simp] theorem setIndex_v (w : Word) : (s.setIndex w).v = s.v := rfl
@[simp] theorem setIndex_index (w : Word) : (s.setIndex w).index = w := rfl
@[simp] theorem setIndex_pc (w : Word) : (s.setIndex w).pc = s.pc := rfl
@[simp] theorem setIndex_stack (w : Word) : (s.setIndex w).stack = s.stack := rfl
@[simp] theorem setIndex_disp (w : Word) : (s.setIndex w).disp = s.disp := rfl
@[simp] theorem setIndex_key (w : Word) : (s.setIndex w).key = s.key := rfl
@[simp] theorem setIndex_mem (w : Word) : (s.setIndex w).mem = s.mem := rfl
@[simp] theorem setIndex_rndIn (w : Word) : (s.setIndex w).rndIn = s.rndIn := rfl
@[simp] theorem setIndex_draws (w : Word) : (s.setIndex w).draws = s.draws := rfl

@[simp] theorem advance_v : (s.advance).v = s.v := rfl
@[simp] theorem advance_index : (s.advance).index = s.index := rfl
@[simp] theorem advance_pc : (s.advance).pc = s.pc + 2#16 := rfl
@[simp] theorem advance_stack : (s.advance).stack = s.stack := rfl
@[simp] theorem advance_disp : (s.advance).disp = s.disp := rfl
@[simp] theorem advance_key : (s.advance).key = s.key := rfl
@[simp] theorem advance_mem : (s.advance).mem = s.mem := rfl
@[simp] theorem advance_rndIn : (s.advance).rndIn = s.rndIn := rfl
@[simp] theorem advance_draws : (s.advance).draws = s.draws := rfl

@[simp] theorem jump_v (w : Word) : (s.jump w).v = s.v := rfl
@[simp] theorem jump_index (w : Word) : (s.jump w).index = s.index := rfl
@[simp] theorem jump_pc (w : Word) : (s.jump w).pc = w := rfl
@[simp] theorem jump_stack (w : Word) : (s.jump w).stack = s.stack := rfl
@[simp] theorem jump_disp (w : Word) : (s.jump w).disp = s.disp := rfl
@[simp] theorem jump_key (w : Word) : (s.jump w).key = s.key := rfl
@[simp] theorem jump_mem (w : Word) : (s.jump w).mem = s.mem := rfl
@[simp] theorem jump_rndIn (w : Word) : (s.jump w).rndIn = s.rndIn := rfl
@[simp] theorem jump_draws (w : Word) : (s.jump w).draws = s.draws := rfl

@[simp] theorem keyIn_v (b : Byte) : (s.keyIn b).v = s.v := rfl
@[simp] theorem keyIn_index (b : Byte) : (s.keyIn b).index = s.index := rfl
@[simp] theorem keyIn_pc (b : Byte) : (s.keyIn b).pc = s.pc := rfl
@[simp] theorem keyIn_stack (b : Byte) : (s.keyIn b).stack = s.stack := rfl
@[simp] theorem keyIn_disp (b : Byte) : (s.keyIn b).disp = s.disp := rfl
@[simp] theorem keyIn_key (b : Byte) : (s.keyIn b).key = b := rfl
@[simp] theorem keyIn_mem (b : Byte) : (s.keyIn b).mem = s.mem := rfl
@[simp] theorem keyIn_rndIn (b : Byte) : (s.keyIn b).rndIn = s.rndIn := rfl
@[simp] theorem keyIn_draws (b : Byte) : (s.keyIn b).draws = s.draws := rfl

@[simp] theorem supplyRandom_v (bs : List Byte) : (s.supplyRandom bs).v = s.v := rfl
@[simp] theorem supplyRandom_index (bs : List Byte) : (s.supplyRandom bs).index = s.index := rfl
@[simp] theorem supplyRandom_pc (bs : List Byte) : (s.supplyRandom bs).pc = s.pc := rfl
@[simp] theorem supplyRandom_stack (bs : List Byte) : (s.supplyRandom bs).stack = s.stack := rfl
@[simp] theorem supplyRandom_disp (bs : List Byte) : (s.supplyRandom bs).disp = s.disp := rfl
@[simp] theorem supplyRandom_key (bs : List Byte) : (s.supplyRandom bs).key = s.key := rfl
@[simp] theorem supplyRandom_mem (bs : List Byte) : (s.supplyRandom bs).mem = s.mem := rfl
@[simp] theorem supplyRandom_rndIn (bs : List Byte) : (s.supplyRandom bs).rndIn = s.rndIn ++ bs := rfl
@[simp] theorem supplyRandom_draws (bs : List Byte) : (s.supplyRandom bs).draws = s.draws := rfl

/-- A register reads back what was written to it. -/
@[simp] theorem reg_setReg_self (r : RegIx) (b : Byte) : (s.setReg r b).reg r = b := by
  simp [State.reg]

/-- Writing a register leaves every other one. -/
theorem reg_setReg_of_ne (r q : RegIx) (b : Byte) (h : q ≠ r) : (s.setReg r b).reg q = s.reg q := by
  have : r.val ≠ q.val := fun e => h (Fin.ext e.symm)
  simp [State.reg, Vector.getElem_set_ne _ _ this]

@[simp] theorem reg_setIndex (w : Word) (r : RegIx) : (s.setIndex w).reg r = s.reg r := rfl
@[simp] theorem reg_advance (r : RegIx) : (s.advance).reg r = s.reg r := rfl
@[simp] theorem reg_jump (w : Word) (r : RegIx) : (s.jump w).reg r = s.reg r := rfl
@[simp] theorem reg_keyIn (b : Byte) (r : RegIx) : (s.keyIn b).reg r = s.reg r := rfl
@[simp] theorem reg_supplyRandom (bs : List Byte) (r : RegIx) : (s.supplyRandom bs).reg r = s.reg r := rfl

@[simp] theorem pixel_setReg (r : RegIx) (b : Byte) (row : Fin 32) (col : Fin 64) : (s.setReg r b).pixel row col = s.pixel row col := rfl
@[simp] theorem pixel_setIndex (w : Word) (row : Fin 32) (col : Fin 64) : (s.setIndex w).pixel row col = s.pixel row col := rfl
@[simp] theorem pixel_advance (row : Fin 32) (col : Fin 64) : (s.advance).pixel row col = s.pixel row col := rfl
@[simp] theorem pixel_jump (w : Word) (row : Fin 32) (col : Fin 64) : (s.jump w).pixel row col = s.pixel row col := rfl
@[simp] theorem pixel_keyIn (b : Byte) (row : Fin 32) (col : Fin 64) : (s.keyIn b).pixel row col = s.pixel row col := rfl
@[simp] theorem pixel_supplyRandom (bs : List Byte) (row : Fin 32) (col : Fin 64) : (s.supplyRandom bs).pixel row col = s.pixel row col := rfl

/-- Two advances are a skip: `PC` grows by 4 (44_skips.md R140). -/
theorem advance_advance_pc : s.advance.advance.pc = s.pc + 4#16 := by
  rw [advance_pc, advance_pc, BitVec.add_assoc]
  rfl

end Sys2Proof.Laws
end

