-- ==== Sys2Proof/Laws/Ops.lean ====
section
/-! SUPPORT. What each shared operation answers, once: the fetch, push and pop, the random draw. -/

namespace Sys2Proof.Laws
open Sys2Proof Sys2Proof.Machine

/-- The fetch inside memory (20_memory.md R33). -/
theorem fetch_of_lt {s : State} (h : s.pc.toNat + 1 < Config.memSize) :
    s.fetch = .ok (wordOfBytes (s.mem.byteAt s.pc.toNat) (s.mem.byteAt (s.pc.toNat + 1))) := by
  simp only [State.fetch, read2_of_lt s.mem h]

/-- The fetch with a byte outside memory. -/
theorem fetch_of_le {s : State} (h : Config.memSize ≤ s.pc.toNat + 1) :
    s.fetch = .error (.outOfBoundsFetch s.pc (BitVec.ofNat 16 (max s.pc.toNat Config.memSize))) := by
  simp only [State.fetch, read2_of_le s.mem h]

/-- The fetch depends on `PC` and memory alone. -/
theorem fetch_congr {s t : State} (hpc : t.pc = s.pc) (hmem : t.mem = s.mem) : t.fetch = s.fetch := by
  simp only [State.fetch, hpc, hmem]

/-- The big-endian word as a number. -/
theorem wordOfBytes_toNat (hi lo : Byte) : (wordOfBytes hi lo).toNat = 256 * hi.toNat + lo.toNat := by
  rw [wordOfBytes, BitVec.toNat_append, ← Nat.shiftLeft_add_eq_or_of_lt lo.isLt, Nat.shiftLeft_eq]
  omega

/-- A word is the word of its two bytes. -/
theorem wordOfBytes_hiByte_loByte (w : Word) : wordOfBytes (hiByte w) (loByte w) = w := by
  apply BitVec.eq_of_toNat_eq
  have := w.isLt
  rw [wordOfBytes_toNat]
  simp only [hiByte, loByte, BitVec.extractLsb'_toNat, Nat.shiftRight_eq_div_pow]
  omega

theorem push_of_lt {s : State} (v : Word) (h : s.stack.length < 16) : s.push v = some { s with stack := s.stack ++ [v] } :=
  if_neg (Nat.not_le.2 h)

theorem push_of_le {s : State} (v : Word) (h : 16 ≤ s.stack.length) : s.push v = none :=
  if_pos h

theorem pop_append {s : State} {below : List Word} {top : Word} (h : s.stack = below ++ [top]) :
    s.pop = some (top, { s with stack := below }) := by
  simp [State.pop, h]

theorem pop_nil {s : State} (h : s.stack = []) : s.pop = none := by
  simp [State.pop, h]

/-- A pop takes the last entry and changes the stack alone. -/
theorem pop_eq_some {s t : State} {v : Word} (h : s.pop = some (v, t)) :
    s.stack = t.stack ++ [v] ∧ t = { s with stack := t.stack } := by
  rcases List.eq_nil_or_concat s.stack with h0 | ⟨below, top, h0⟩
  · simp [pop_nil h0] at h
  · rw [List.concat_eq_append] at h0
    rw [pop_append h0] at h
    cases h
    exact ⟨h0, rfl⟩

theorem drawByte_cons {s : State} {b : Byte} {rest : List Byte} (h : s.rndIn = b :: rest) :
    s.drawByte = (b, { s with rndIn := rest, draws := s.draws + 1 }) := by
  simp only [State.drawByte, h]

theorem drawByte_nil {s : State} (h : s.rndIn = []) :
    s.drawByte = (Config.randomByte s.draws, { s with draws := s.draws + 1 }) := by
  simp only [State.drawByte, h]

/-- A draw is counted once and changes only the random port. -/
theorem drawByte_snd (s : State) : s.drawByte.2 = { s with rndIn := s.rndIn.tail, draws := s.draws + 1 } := by
  cases h : s.rndIn with
  | nil => rw [drawByte_nil h, List.tail_nil, ← h]
  | cons b rest => rw [drawByte_cons h, List.tail_cons]

end Sys2Proof.Laws
end

