-- ==== Sys2Proof/Laws/PerInstr.lean ====
section
/-! SUPPORT. The per-instruction family SelectedByItsRow: the word of every instruction is selected by the row of the opcode table that
has its mnemonic (30_encoding.md R54, R55). -/

namespace Sys2Proof.Laws
open Sys2Proof

/-- The encoded word passes the (mask, match) test of the row with the instruction's mnemonic. -/
def SelectedByItsRow.Statement (i : Instr) : Prop :=
  ∃ r ∈ opcodeTable, r.mnemonic = i.mnemonic ∧ r.selects (encode i) = true

/-- A row with mask 0xF000 selects the words with its high nibble. -/
theorem selects_op {m : String} {op : Nibble} {w p : Word} (hw : w.toNat / 4096 = op.toNat)
    (hp : p = BitVec.ofNat 16 (op.toNat * 4096)) : (OpcodeRow.mk m 0xF000#16 p).selects w = true := by
  simp [OpcodeRow.selects, and_opMask, hw, hp]

/-- A row with mask 0xF0FF selects the words with its high nibble and low byte. -/
theorem selects_key {m : String} {op : Nibble} {k : Byte} {w p : Word} (hw : w.toNat / 4096 = op.toNat)
    (hk : w.toNat % 256 = k.toNat) (hp : p = BitVec.ofNat 16 (op.toNat * 4096 + k.toNat)) :
    (OpcodeRow.mk m 0xF0FF#16 p).selects w = true := by
  simp [OpcodeRow.selects, and_keyMask, hw, hk, hp]

theorem encAddr_op (op : Nibble) (a : Addr12) : (encAddr op a).toNat / 4096 = op.toNat := by
  rw [encAddr_toNat]
  omega

theorem encRegImm_op (op : Nibble) (x : RegIx) (k : Byte) : (encRegImm op x k).toNat / 4096 = op.toNat := by
  rw [encRegImm_toNat]
  omega

theorem encRegImm_low (op : Nibble) (x : RegIx) (k : Byte) : (encRegImm op x k).toNat % 256 = k.toNat := by
  rw [encRegImm_toNat]
  omega

theorem encRegReg_op (op : Nibble) (x y : RegIx) (n : Nibble) : (encRegReg op x y n).toNat / 4096 = op.toNat := by
  rw [encRegReg_toNat]
  omega

theorem SelectedByItsRow.halt : SelectedByItsRow.Statement .halt :=
  ⟨⟨"HALT", 0xFFFF#16, 0x0000#16⟩, by decide, rfl, rfl⟩

theorem SelectedByItsRow.cls : SelectedByItsRow.Statement .cls :=
  ⟨⟨"CLS", 0xFFFF#16, 0x00E0#16⟩, by decide, rfl, rfl⟩

theorem SelectedByItsRow.ret : SelectedByItsRow.Statement .ret :=
  ⟨⟨"RET", 0xFFFF#16, 0x00EE#16⟩, by decide, rfl, rfl⟩

theorem SelectedByItsRow.jp (a : Addr12) : SelectedByItsRow.Statement (.jp a) :=
  ⟨⟨"JP", 0xF000#16, 0x1000#16⟩, by decide, rfl, selects_op (encAddr_op ..) rfl⟩

theorem SelectedByItsRow.call (a : Addr12) : SelectedByItsRow.Statement (.call a) :=
  ⟨⟨"CALL", 0xF000#16, 0x2000#16⟩, by decide, rfl, selects_op (encAddr_op ..) rfl⟩

theorem SelectedByItsRow.seImm (x : RegIx) (k : Byte) : SelectedByItsRow.Statement (.seImm x k) :=
  ⟨⟨"SE_IMM", 0xF000#16, 0x3000#16⟩, by decide, rfl, selects_op (encRegImm_op ..) rfl⟩

theorem SelectedByItsRow.sneImm (x : RegIx) (k : Byte) : SelectedByItsRow.Statement (.sneImm x k) :=
  ⟨⟨"SNE_IMM", 0xF000#16, 0x4000#16⟩, by decide, rfl, selects_op (encRegImm_op ..) rfl⟩

theorem SelectedByItsRow.seReg (x : RegIx) (y : RegIx) : SelectedByItsRow.Statement (.seReg x y) :=
  ⟨⟨"SE_REG", 0xF000#16, 0x5000#16⟩, by decide, rfl, selects_op (encRegReg_op ..) rfl⟩

theorem SelectedByItsRow.ldImm (x : RegIx) (k : Byte) : SelectedByItsRow.Statement (.ldImm x k) :=
  ⟨⟨"LD_IMM", 0xF000#16, 0x6000#16⟩, by decide, rfl, selects_op (encRegImm_op ..) rfl⟩

theorem SelectedByItsRow.addImm (x : RegIx) (k : Byte) : SelectedByItsRow.Statement (.addImm x k) :=
  ⟨⟨"ADD_IMM", 0xF000#16, 0x7000#16⟩, by decide, rfl, selects_op (encRegImm_op ..) rfl⟩

theorem SelectedByItsRow.sneReg (x : RegIx) (y : RegIx) : SelectedByItsRow.Statement (.sneReg x y) :=
  ⟨⟨"SNE_REG", 0xF000#16, 0x9000#16⟩, by decide, rfl, selects_op (encRegReg_op ..) rfl⟩

theorem SelectedByItsRow.ldI (a : Addr12) : SelectedByItsRow.Statement (.ldI a) :=
  ⟨⟨"LD_I", 0xF000#16, 0xA000#16⟩, by decide, rfl, selects_op (encAddr_op ..) rfl⟩

theorem SelectedByItsRow.jpV0 (a : Addr12) : SelectedByItsRow.Statement (.jpV0 a) :=
  ⟨⟨"JP_V0", 0xF000#16, 0xB000#16⟩, by decide, rfl, selects_op (encAddr_op ..) rfl⟩

theorem SelectedByItsRow.rnd (x : RegIx) (k : Byte) : SelectedByItsRow.Statement (.rnd x k) :=
  ⟨⟨"RND", 0xF000#16, 0xC000#16⟩, by decide, rfl, selects_op (encRegImm_op ..) rfl⟩

theorem SelectedByItsRow.drw (x : RegIx) (y : RegIx) (n : Nibble) : SelectedByItsRow.Statement (.drw x y n) :=
  ⟨⟨"DRW", 0xF000#16, 0xD000#16⟩, by decide, rfl, selects_op (encRegReg_op ..) rfl⟩

theorem SelectedByItsRow.skp (x : RegIx) : SelectedByItsRow.Statement (.skp x) :=
  ⟨⟨"SKP", 0xF0FF#16, 0xE09E#16⟩, by decide, rfl, selects_key (encRegImm_op ..) (encRegImm_low ..) rfl⟩

theorem SelectedByItsRow.sknp (x : RegIx) : SelectedByItsRow.Statement (.sknp x) :=
  ⟨⟨"SKNP", 0xF0FF#16, 0xE0A1#16⟩, by decide, rfl, selects_key (encRegImm_op ..) (encRegImm_low ..) rfl⟩

end Sys2Proof.Laws
end

