-- ==== Sys2Proof/Laws/Step.lean ====
section
/-! SUPPORT. The step taken apart once: where it raises, and which instruction it runs (40_decode_dispatch.md R73). -/

namespace Sys2Proof.Laws
open Sys2Proof Sys2Proof.Machine

theorem step_of_fetch_error {s : State} {f : Fault} (h : s.fetch = .error f) : step s = .fault f := by
  simp only [step, h, raise]

theorem step_of_decode_error {s : State} {w : Word} {e : DecodeError} (h : s.fetch = .ok w) (hd : decodeWord w = .error e) :
    step s = .fault (.unknownOpcode s.pc w) := by
  simp only [step, h, hd, raise]

theorem step_of_decode_ok {s : State} {w : Word} {i : Instr} (h : s.fetch = .ok w) (hd : decodeWord w = .ok i) :
    step s = exec i s := by
  simp only [step, h, hd]

/-- A step that answers a next state fetched a word inside memory and ran the instruction it decodes to. -/
theorem step_eq_next {s t : State} (h : step s = .next t) :
    ∃ w i, s.fetch = .ok w ∧ s.pc.toNat + 1 < Config.memSize ∧ decodeWord w = .ok i ∧ exec i s = .next t := by
  cases hf : s.fetch with
  | error f => simp [step_of_fetch_error hf] at h
  | ok w =>
    have hlt : s.pc.toNat + 1 < Config.memSize := by
      by_contra hno
      simp [fetch_of_le (s := s) (by omega)] at hf
    cases hd : decodeWord w with
    | error e => simp [step_of_decode_error hf hd] at h
    | ok i => exact ⟨w, i, rfl, hlt, hd, step_of_decode_ok hf hd ▸ h⟩

end Sys2Proof.Laws
end

