-- ==== Sys2Proof/Tests/Slice0.lean ====
section
/-! SUPPORT. The model's own tests. Every expected value is one of spec/95_test_vectors.md (its id in the comment) or read off a rule. The
second half shows, for each statement of Obligations.lean that has hypotheses, a state and operands that meet them. -/

namespace Sys2Proof.Tests
open Sys2Proof Sys2Proof.Machine

/-! ## Well-formedness: an ill-formed term for each check -/

theorem test_operandsFit_refuses_register_16 : operandsFit [(16, 16)] = false := by decide

theorem test_operandsFit_accepts_register_15 : operandsFit [(15, 16)] = true := by decide

theorem test_wellFormed_accepts_drw : (Instr.drw 15 15 0xF#4).WellFormed = true := by decide

/-- CON4 and CON3. -/
theorem test_imageFits_boundary : imageFits (List.replicate 3585 0x11#8) = false ∧ imageFits (List.replicate 3584 0x11#8) = true := by
  rw [imageFits, imageFits, List.length_replicate, List.length_replicate]
  decide

theorem test_memoryWf_refuses_unsorted : Memory.wf [(5, 1#8), (3, 1#8)] = false := by decide

theorem test_memoryWf_refuses_repeated : Memory.wf [(5, 1#8), (5, 2#8)] = false := by decide

theorem test_memoryWf_refuses_blank_entry : Memory.wf [(5, 0#8)] = false := by decide

theorem test_memoryWf_refuses_address_4096 : Memory.wf [(4096, 1#8)] = false := by decide

theorem test_stateWf_refuses_17_entries : ({ State.reset with stack := List.replicate 17 0#16 } : State).wf = false := by decide

/-! ## Decoding: words written out from 30_encoding.md -/

/-- DSP1 to DSP3. -/
theorem test_decode_full_words :
    decodeWord 0x0000#16 = .ok .halt ∧ decodeWord 0x00E0#16 = .ok .cls ∧ decodeWord 0x00EE#16 = .ok .ret := by decide

/-- 0001 1010 1011 1100 and its neighbours by high nibble: JP, CALL, LD_I, JP_V0. -/
theorem test_decode_address_words :
    decodeWord 0b0001101010111100#16 = .ok (.jp 0xABC#12) ∧ decodeWord 0b0010101010111100#16 = .ok (.call 0xABC#12) ∧
    decodeWord 0b1010001000011110#16 = .ok (.ldI 0x21E#12) ∧ decodeWord 0b1011001100000000#16 = .ok (.jpV0 0x300#12) := by decide

/-- SE_IMM, SNE_IMM, LD_IMM, ADD_IMM, RND. -/
theorem test_decode_register_immediate_words :
    decodeWord 0b0011001000000001#16 = .ok (.seImm 2 0x01#8) ∧ decodeWord 0b0100001000000001#16 = .ok (.sneImm 2 0x01#8) ∧
    decodeWord 0b0110101001111111#16 = .ok (.ldImm 10 0x7F#8) ∧ decodeWord 0b0111001100100000#16 = .ok (.addImm 3 0x20#8) ∧
    decodeWord 0b1100001000010000#16 = .ok (.rnd 2 0x10#8) := by decide

/-- SE_REG and SNE_REG with a low nibble that is ignored (SER3, SNER3), DRW, SKP, SKNP. -/
theorem test_decode_register_words :
    decodeWord 0b0101000100101111#16 = .ok (.seReg 1 2) ∧ decodeWord 0b1001000100100111#16 = .ok (.sneReg 1 2) ∧
    decodeWord 0b1101000100100101#16 = .ok (.drw 1 2 0x5#4) ∧ decodeWord 0b1110010010011110#16 = .ok (.skp 4) ∧
    decodeWord 0b1110010010100001#16 = .ok (.sknp 4) := by decide

/-- DSP4, DSP5, DSP7, DSP15, DSP23, DSP24. -/
theorem test_decode_illegal_words :
    [0x00E1#16, 0x0001#16, 0x0FFF#16, 0x8120#16, 0xE09F#16, 0xE19D#16, 0xF00A#16, 0xFFFF#16].map decodeWord =
      [0x00E1#16, 0x0001#16, 0x0FFF#16, 0x8120#16, 0xE09F#16, 0xE19D#16, 0xF00A#16, 0xFFFF#16].map
        fun w => .error (.unknownOpcode w) := by decide

/-- DEC5: the fields of 0xE49E. -/
theorem test_fields_of_E49E :
    fieldsOf 0xE49E#16 = ⟨0xE#4, 0x49E#12, 0x9E#8, 4, 9, 0xE#4⟩ := by decide

theorem test_decode_bytes : decode [0xA2#8, 0x1E#8, 0x77#8] = .ok (.ldI 0x21E#12, [0x77#8]) ∧ decode [0xA2#8] = .error .truncated := by
  decide

/-- The assembler's words of 30_encoding.md R61. -/
theorem test_encode_words :
    encode (.drw 1 2 0x5#4) = 0xD125#16 ∧ encode (.skp 4) = 0xE49E#16 ∧ encode (.seReg 1 2) = 0x5120#16 := by decide

theorem test_decodeTableWord : decodeTableWord 16 0xA21E = some (.ldI 0x21E#12) ∧ decodeTableWord 16 0x8000 = none := by decide

/-! ## One step each -/

/-- The reset state with bytes at 0x200 (the start state of 95_test_vectors.md). -/
def start (bytes : List Byte) : State :=
  { State.reset with mem := Memory.load [] 0x200 bytes }

/-- A view of the next state. -/
def seen {α : Type} (view : State → α) : Result → Option α
  | .next t => some (view t)
  | .fault _ => none
  | .refused _ => none

/-- The fault of a result. -/
def faultOf : Result → Option Fault
  | .next _ => none
  | .fault f => some f
  | .refused _ => none

/-- S1, HLT1. -/
theorem test_halt : stepPort (start []) = (start [], .halted) := by decide

/-- CLS1: VF is kept. -/
theorem test_cls :
    seen (fun t => (t.pc, t.reg 15, t.pixel 10 20))
      (step { start [0x00#8, 0xE0#8] with
        disp := (drawSprite 20 10 [0x80#8] (Display.blank, false)).1, v := State.reset.v.set 15 1#8 }) =
      some (0x202#16, 1#8, false) := by decide

/-- RET2. -/
theorem test_ret :
    seen (fun t => (t.pc, t.stack)) (exec .ret { State.reset with pc := 0x300#16, stack := [0x0200#16, 0x0456#16] }) =
      some (0x458#16, [0x0200#16]) := by decide

/-- RET3. -/
theorem test_ret_underflow : faultOf (step (start [0x00#8, 0xEE#8])) = some (.stackUnderflow 0x200#16 0x00EE#16) := by decide

/-- JP1, JP3. -/
theorem test_jp :
    seen State.pc (step (start [0x1A#8, 0xBC#8])) = some 0x0ABC#16 ∧
    faultOf (step { start [] with pc := 0x0FFF#16 }) = some (.outOfBoundsFetch 0x0FFF#16 0x1000#16) := by decide

/-- CALL2: the pushed entry is the CALL's own address, the new top last. -/
theorem test_call :
    seen (fun t => (t.pc, t.stack)) (exec (.call 0xABC#12) { State.reset with pc := 0x456#16, stack := [0x0200#16] }) =
      some (0x0ABC#16, [0x0200#16, 0x0456#16]) := by decide

/-- CALL4. -/
theorem test_call_overflow :
    faultOf (step { start [0x23#8, 0x00#8] with stack := List.replicate 16 0x0200#16 }) =
      some (.stackOverflow 0x200#16 0x2300#16) := by decide

/-- JPV3: V0 is used, not V3; JPV4: the sum is not reduced. -/
theorem test_jpV0 :
    seen State.pc (step { start [0xB3#8, 0x00#8] with v := (State.reset.v.set 0 0xFF#8).set 3 0x77#8 }) = some 0x03FF#16 ∧
    seen State.pc (step { start [0xBF#8, 0xFF#8] with v := State.reset.v.set 0 0xFF#8 }) = some 0x10FE#16 := by decide

/-- SE1, SE2 (the source's S4). -/
theorem test_seImm :
    seen State.pc (step { start [0x32#8, 0x01#8] with v := State.reset.v.set 2 1#8 }) = some 0x204#16 ∧
    seen State.pc (step { start [0x32#8, 0x01#8] with v := State.reset.v.set 2 2#8 }) = some 0x202#16 := by decide

/-- SNE1, SNE2 (the source's S5). -/
theorem test_sneImm :
    seen State.pc (step { start [0x42#8, 0x01#8] with v := State.reset.v.set 2 1#8 }) = some 0x202#16 ∧
    seen State.pc (step { start [0x42#8, 0x01#8] with v := State.reset.v.set 2 2#8 }) = some 0x204#16 := by decide

/-- SER2, SER3. -/
theorem test_seReg :
    seen State.pc (step { start [0x51#8, 0x20#8] with v := (State.reset.v.set 1 0x33#8).set 2 0x34#8 }) = some 0x202#16 ∧
    seen State.pc (step { start [0x51#8, 0x2F#8] with v := (State.reset.v.set 1 0x33#8).set 2 0x33#8 }) = some 0x204#16 := by decide

/-- SNER1, SNER4. -/
theorem test_sneReg :
    seen State.pc (step { start [0x91#8, 0x20#8] with v := (State.reset.v.set 1 0x33#8).set 2 0x34#8 }) = some 0x204#16 ∧
    seen State.pc (step { start [0x97#8, 0x70#8] with v := State.reset.v.set 7 0x9C#8 }) = some 0x202#16 := by decide

/-- SKP1, SKP2, SKP4. -/
theorem test_skp :
    seen State.pc (step { start [0xE4#8, 0x9E#8] with v := State.reset.v.set 4 5#8, key := 5#8 }) = some 0x204#16 ∧
    seen State.pc (step { start [0xE4#8, 0x9E#8] with v := State.reset.v.set 4 5#8 }) = some 0x202#16 ∧
    seen State.pc (step { start [0xE4#8, 0x9E#8] with v := State.reset.v.set 4 0x41#8, key := 0x41#8 }) = some 0x204#16 := by decide

/-- SKNP1, SKNP2. -/
theorem test_sknp :
    seen State.pc (step { start [0xE4#8, 0xA1#8] with v := State.reset.v.set 4 5#8 }) = some 0x204#16 ∧
    seen State.pc (step { start [0xE4#8, 0xA1#8] with v := State.reset.v.set 4 5#8, key := 5#8 }) = some 0x202#16 := by decide

/-- SKIP-END: a skip at the end of memory raises nothing in its own step. -/
theorem test_skip_at_the_end :
    seen State.pc (step { State.reset with pc := 0x0FFC#16, mem := Memory.load [] 0xFFC [0x30#8, 0x00#8] }) = some 0x1000#16 := by decide

/-- LD1. -/
theorem test_ldImm : seen (fun t => (t.pc, t.reg 10)) (step (start [0x6A#8, 0x7F#8])) = some (0x202#16, 0x7F#8) := by decide

/-- ADD1, ADD7: no carry into VF, and VF as an ordinary register. -/
theorem test_addImm :
    seen (fun t => (t.pc, t.reg 3, t.reg 15)) (step { start [0x73#8, 0x20#8] with v := State.reset.v.set 3 0xF0#8 }) =
      some (0x202#16, 0x10#8, 0x00#8) ∧
    seen (fun t => t.reg 15) (step { start [0x7F#8, 0x02#8] with v := State.reset.v.set 15 1#8 }) = some 0x03#8 := by decide

/-- LDI1 (the source's S2), LDI2. -/
theorem test_ldI :
    seen (fun t => (t.pc, t.index)) (step (start [0xA2#8, 0x1E#8])) = some (0x202#16, 0x21E#16) ∧
    seen State.index (step { start [0xA0#8, 0x00#8] with index := 0x0ABC#16 }) = some 0x0000#16 := by decide

/-- RND1 (the source's S3), with the source stubbed to answer 0xFF. -/
theorem test_rnd : seen (fun t => (t.pc, t.reg 2)) (step ((start [0xC2#8, 0x10#8]).supplyRandom [0xFF#8])) = some (0x202#16, 0x10#8) := by
  decide

/-- RND3: a draw is consumed although the mask is 0. -/
theorem test_rnd_mask_zero :
    seen (fun t => (t.reg 3, t.rndIn)) (step ((start [0xC3#8, 0x00#8]).supplyRandom [0xA7#8, 0x12#8])) =
      some (0x00#8, [0x12#8]) := by decide

/-- DRW15: two rows, both ends of a row, a collision. -/
theorem test_drw :
    seen (fun t => (t.pc, t.reg 15, [t.pixel 4 8, t.pixel 4 15, t.pixel 5 9, t.pixel 5 14]))
      (exec (.drw 0 1 0x2#4)
        { State.reset with
          v := (State.reset.v.set 0 8#8).set 1 4#8, index := 0x300#16, mem := Memory.load [] 0x300 [0x81#8, 0x42#8],
          disp := (drawSprite 8 4 [0x80#8, 0x40#8] (Display.blank, false)).1 }) =
      some (0x202#16, 1#8, [false, true, false, true]) := by decide

/-- DRW13: nothing is drawn, the lowest address outside memory is reported. -/
theorem test_drw_out_of_bounds :
    faultOf (step { start [0xD0#8, 0x13#8] with index := 0x0FFE#16 }) =
      some (.outOfBoundsSprite 0x200#16 0xD013#16 0x1000#16) := by decide

/-- DRW10: the coordinate is VF's old value; DRW8: columns past 255 do not wrap. -/
theorem test_drw_reads_old_vf :
    seen (fun t => (t.reg 15, t.pixel 2 1))
      (exec (.drw 15 0 0x1#4)
        { State.reset with
          v := (State.reset.v.set 15 1#8).set 0 2#8, index := 0x300#16, mem := Memory.load [] 0x300 [0x80#8] }) =
      some (0#8, true) := by decide

/-- FLT4: an unknown word, with its record. -/
theorem test_unknown_opcode :
    (stepPort (start [0x81#8, 0x20#8])).2 = .fatal ⟨1, 0x200#16, some 0x8120#16, none⟩ := by decide

/-- CON2. -/
theorem test_construct : construct [0xA2#8, 0x1E#8] = .ok (start [0xA2#8, 0x1E#8]) := by decide

/-- The host's placed word runs as the first instruction after reset. -/
theorem test_withFetchWord :
    seen (fun t => (t.pc, t.index)) (step (State.reset.withFetchWord 16 0xA21E)) = some (0x202#16, 0x21E#16) := by decide

/-! ## Witnesses: the hypotheses of the statements can be met -/

/-- A word lies at `PC` exactly as the start state says. -/
theorem wordAt_start (hi lo : Byte) (w : Word) (h : w.toNat = 256 * ((start [hi, lo]).mem.byteAt 0x200).toNat +
    ((start [hi, lo]).mem.byteAt 0x201).toNat) : (start [hi, lo]).WordAt w :=
  ⟨by show (0x200#16 : Word).toNat + 1 < 4096; decide, h⟩

/-- EncodeInvertsDecode, DispatchAgreesWithOpcodeTable: a word of family 5 with a low nibble, and one of no such family. -/
theorem witness_decoded_words :
    (decodeWord 0x512F#16 = .ok (.seReg 1 2) ∧ (0x512F#16 : Word).toNat / 4096 = 5) ∧ decodeWord 0xEFA1#16 = .ok (.sknp 15) := by decide

/-- LowNibbleOfRegisterSkipsIgnored. -/
theorem witness_low_nibble :
    (0x5120#16 : Word).toNat / 4096 = 5 ∧ (0x5120#16 : Word).toNat / 16 = (0x512F#16 : Word).toNat / 16 ∧
    (0x9FF0#16 : Word).toNat / 4096 = 9 ∧ (0x9FF0#16 : Word).toNat / 16 = (0x9FFF#16 : Word).toNat / 16 := by decide

/-- OpcodeRowsPairwiseDisjoint, DispatchAgreesWithOpcodeTable: a row and a word it selects; a word no row selects. -/
theorem witness_selected_row :
    (⟨"SKP", 0xF0FF#16, 0xE09E#16⟩ : OpcodeRow) ∈ opcodeTable ∧ OpcodeRow.selects ⟨"SKP", 0xF0FF#16, 0xE09E#16⟩ 0xE59E#16 = true ∧
    ∀ r ∈ opcodeTable, r.selects 0x8120#16 = false := by decide

/-- IllegalWordsAreThoseOfTheTable: the ends of the ranges of 30_encoding.md R58, and words beside them. -/
theorem witness_illegal_words :
    IllegalWord 0x0001#16 ∧ IllegalWord 0x0FFF#16 ∧ IllegalWord 0x8000#16 ∧ IllegalWord 0x8FFF#16 ∧ IllegalWord 0xE000#16 ∧
    IllegalWord 0xEFFF#16 ∧ IllegalWord 0xF000#16 ∧ IllegalWord 0xFFFF#16 ∧ ¬ IllegalWord 0x0000#16 ∧ ¬ IllegalWord 0x00EE#16 ∧
    ¬ IllegalWord 0x1000#16 ∧ ¬ IllegalWord 0x9000#16 ∧ ¬ IllegalWord 0xE09E#16 ∧ ¬ IllegalWord 0xEFA1#16 := by
  refine ⟨?_, ?_, ?_, ?_, ?_, ?_, ?_, ?_, ?_, ?_, ?_, ?_, ?_, ?_⟩ <;> unfold IllegalWord <;> decide

/-- StepRunsTheDecodedInstr, UnknownOpcodeForExactlyTheIllegalWords, OnlyDrwReadsMemoryBeyondTheFetch: a fetched word of each kind. -/
theorem witness_fetched_words :
    ((start [0x6A#8, 0x7F#8]).WordAt 0x6A7F#16 ∧ decodeWord 0x6A7F#16 = .ok (.ldImm 10 0x7F#8)) ∧
    ((start [0x81#8, 0x20#8]).WordAt 0x8120#16 ∧ IllegalWord 0x8120#16) ∧ (0x6A7F#16 : Word).toNat / 4096 ≠ 13 :=
  ⟨⟨wordAt_start _ _ _ (by decide), by decide⟩, ⟨wordAt_start _ _ _ (by decide), .inr (.inl (by decide))⟩, by decide⟩

/-- OnlyDrwReadsMemoryBeyondTheFetch: another memory that agrees on the two fetched bytes and not beyond. -/
theorem witness_other_memory :
    (start [0x30#8, 0x00#8, 0xFF#8]).mem.byteAt 0x200 = (start [0x30#8, 0x00#8]).mem.byteAt 0x200 ∧
    (start [0x30#8, 0x00#8, 0xFF#8]).mem.byteAt 0x201 = (start [0x30#8, 0x00#8]).mem.byteAt 0x201 ∧
    (start [0x30#8, 0x00#8, 0xFF#8]).mem ≠ (start [0x30#8, 0x00#8]).mem := by decide

/-- FetchOutOfBounds: the three clauses at the boundary values of `PC`. -/
theorem witness_fetch_bounds :
    ({ start [] with pc := 0x0FFF#16 } : State).pc.toNat = 0x0FFF ∧ 0x1000 ≤ ({ start [] with pc := 0x1000#16 } : State).pc.toNat ∧
    0x1000 ≤ ({ start [] with pc := 0xFFFF#16 } : State).pc.toNat ∧ ({ start [] with pc := 0x0FFE#16 } : State).pc.toNat < 0x0FFF := by
  decide

/-- StepRaisesExactlyTheFatalConditions, FatalStepWritesNothingAndRepeats: each fatal condition occurs. -/
theorem witness_each_fatal_condition :
    faultOf (step { start [] with pc := 0x10FE#16 }) = some (.outOfBoundsFetch 0x10FE#16 0x10FE#16) ∧
    faultOf (step (start [0xF1#8, 0x07#8])) = some (.unknownOpcode 0x200#16 0xF107#16) ∧
    faultOf (step (start [0x00#8, 0xEE#8])) = some (.stackUnderflow 0x200#16 0x00EE#16) ∧
    faultOf (step { start [0xD0#8, 0x02#8] with index := 0x0FFF#16 }) = some (.outOfBoundsSprite 0x200#16 0xD002#16 0x1000#16) ∧
    faultOf (step { start [0xD0#8, 0x01#8] with index := 0xFFFF#16 }) = some (.outOfBoundsSprite 0x200#16 0xD001#16 0xFFFF#16) := by
  decide

/-- StepOutcomeIsHaltedContinueOrFatal, HaltedStepRepeats, HaltChangesNothing, SuccessfulEndIsFinal: a step of each outcome, and a run
that ends. -/
theorem witness_outcomes :
    (stepPort (start [])).2 = .halted ∧ (stepPort (start [0x12#8, 0x00#8])).2 = .continues ∧
    (stepPort (start [0x81#8, 0x20#8])).2 = .fatal ⟨1, 0x200#16, some 0x8120#16, none⟩ ∧ (start [0#8, 0#8]).WordAt 0x0000#16 :=
  ⟨by decide, by decide, by decide, wordAt_start _ _ _ (by decide)⟩

/-- SuccessfulEndIsFinal: program P7 of 95_test_vectors.md ends. -/
theorem witness_successful_end : ∃ s, EndsHalted [0x6A#8, 0x01#8] s :=
  ⟨List.foldl State.move (start [0x6A#8, 0x01#8]) [.step], ⟨start [0x6A#8, 0x01#8], [.step], by decide, rfl⟩, by decide⟩

/-- DrwXorsTheSpriteAndFlagsCollision, DrwOffTheBufferDrawsNothing: height 0 at the top of `I`, and a sprite that ends at 0xFFF. -/
theorem witness_drw_in_bounds :
    (0x0#4 : Nibble).toNat = 0 ∧ ({ State.reset with index := 0x0FFE#16 } : State).index.toNat + (0x2#4 : Nibble).toNat ≤ 4096 ∧
    64 ≤ (({ State.reset with v := State.reset.v.set 0 64#8 } : State).reg 0).toNat ∧
    32 ≤ (({ State.reset with v := State.reset.v.set 1 32#8 } : State).reg 1).toNat := by decide

/-- DrwChecksEverySpriteByte: the first height that leaves memory. -/
theorem witness_drw_out_of_bounds :
    1 ≤ (0x3#4 : Nibble).toNat ∧ 4096 ≤ ({ State.reset with index := 0x0FFE#16 } : State).index.toNat + (0x3#4 : Nibble).toNat - 1 ∧
    (0xD013#16 : Word).toNat / 4096 = 13 := by decide

/-- DrawingTwiceRestoresTheDisplay: the source's S6, whose first draw answers a next state that turned a pixel on. -/
theorem witness_first_draw :
    (0 : RegIx) ≠ 15 ∧ (1 : RegIx) ≠ 15 ∧
    seen (fun t => (t.reg 15, t.pixel 0 7))
      (exec (.drw 0 1 0x1#4) { State.reset with index := 0x206#16, mem := Memory.load [] 0x206 [0xFF#8] }) =
      some (0#8, true) := by decide

/-- RetPopsAndAdvances, CallPushesItsOwnAddress, ReturnGoesPastTheCall, SeventeenthNestedCallOverflows: a stack of each kind, and a CALL
that answers a next state. -/
theorem witness_stacks :
    ({ State.reset with stack := [0x0200#16] } : State).stack = [] ++ [0x0200#16] ∧ (start [0x00#8, 0xEE#8]).stack = [] ∧
    (List.replicate 15 0x0200#16).length < 16 ∧ (List.replicate 16 0x0200#16).length = 16 ∧ (List.replicate 16 0x200#12).length = 16 ∧
    seen State.stack (exec (.call 0x300#12) State.reset) = some [0x0200#16] := by decide

/-- RetPopsAndAdvances, CallPushesItsOwnAddress: the fetched words of their last clauses. -/
theorem witness_ret_and_call_fetched :
    (start [0x00#8, 0xEE#8]).WordAt 0x00EE#16 ∧
    ({ start [0x23#8, 0x00#8] with stack := List.replicate 16 0x0200#16 } : State).WordAt 0x2300#16 :=
  ⟨wordAt_start _ _ _ (by decide), wordAt_start 0x23#8 0x00#8 _ (by decide)⟩

/-- The Continue clauses of the instruction statements: fetched words that decode to each shape they name, in states where the
instruction answers a next state. -/
theorem witness_continue_clauses :
    (start [0x00#8, 0xE0#8]).WordAt 0x00E0#16 ∧ ({ start [0x00#8, 0xEE#8] with stack := [0#16] } : State).WordAt 0x00EE#16 ∧
    (start [0x1F#8, 0xFF#8]).WordAt 0x1FFF#16 ∧ (start [0x2F#8, 0xFF#8]).WordAt 0x2FFF#16 ∧ (start [0x3F#8, 0x01#8]).WordAt 0x3F01#16 ∧
    (start [0x5F#8, 0xF1#8]).WordAt 0x5FF1#16 ∧ (start [0xEF#8, 0x9E#8]).WordAt 0xEF9E#16 ∧ (start [0x6F#8, 0x00#8]).WordAt 0x6F00#16 ∧
    (start [0x7F#8, 0xFF#8]).WordAt 0x7FFF#16 ∧ (start [0xAF#8, 0xFF#8]).WordAt 0xAFFF#16 ∧
    seen State.pc (exec .ret { start [0x00#8, 0xEE#8] with stack := [0#16] }) = some 2#16 :=
  ⟨wordAt_start _ _ _ (by decide), wordAt_start 0x00#8 0xEE#8 _ (by decide), wordAt_start _ _ _ (by decide), wordAt_start _ _ _ (by decide),
    wordAt_start _ _ _ (by decide), wordAt_start _ _ _ (by decide), wordAt_start _ _ _ (by decide), wordAt_start _ _ _ (by decide),
    wordAt_start _ _ _ (by decide), wordAt_start _ _ _ (by decide), by decide⟩

/-- Those words' instructions, the ends of their operands' ranges among them. -/
theorem witness_continue_words :
    [0x00E0#16, 0x00EE#16, 0x1FFF#16, 0x2FFF#16, 0x3F01#16, 0x5FF1#16, 0xEF9E#16, 0x6F00#16, 0x7FFF#16, 0xAFFF#16].map decodeWord =
      [.ok .cls, .ok .ret, .ok (.jp 0xFFF#12), .ok (.call 0xFFF#12), .ok (.seImm 15 1#8), .ok (.seReg 15 15), .ok (.skp 15),
        .ok (.ldImm 15 0#8), .ok (.addImm 15 0xFF#8), .ok (.ldI 0xFFF#12)] := by decide

/-- The encoding clauses of the instruction statements: a word of each family they name. -/
theorem witness_family_words :
    [0x1000#16, 0x2FFF#16, 0x3000#16, 0x4FFF#16, 0x5FFF#16, 0x6000#16, 0x7FFF#16, 0x9000#16, 0xAFFF#16, 0xB000#16, 0xCFFF#16].map
      (fun w : Word => w.toNat / 4096) = [1, 2, 3, 4, 5, 6, 7, 9, 10, 11, 12] ∧
    [0xE09E#16, 0xEFA1#16, 0xE09F#16].map (fun w : Word => (w.toNat / 4096, w.toNat % 256)) =
      [(14, 0x9E), (14, 0xA1), (14, 0x9F)] := by decide

/-- RndStoresTheMaskedDraw, EveryByteCanBeDrawn: an empty port and one with an answer. -/
theorem witness_random_port : State.reset.rndIn = [] ∧ (State.reset.supplyRandom [0xA7#8]).rndIn = [0xA7#8] := by decide

/-- OnlyNamedRegistersAreWritten: an instruction that answers a next state and a register it does not write; for DRW, a register that is
not VF. -/
theorem witness_register_frame :
    (∀ k : Byte, Instr.drw 0 1 0x0#4 ≠ .ldImm 3 k ∧ Instr.drw 0 1 0x0#4 ≠ .addImm 3 k ∧ Instr.drw 0 1 0x0#4 ≠ .rnd 3 k) ∧
    (3 : RegIx) ≠ 15 ∧ seen State.pc (exec (.drw 0 1 0x0#4) State.reset) = some 0x202#16 :=
  ⟨fun _ => ⟨by simp, by simp, by simp⟩, by decide, by decide⟩

/-- OnlyNamedStateIsWritten, PcUpdateOfEveryInstr, StackChangesOnlyByCallAndRet, OnlyKeySkipsDependOnTheKey, OnlyDrwReadsTheDisplay: the
instructions of every shape answer next states. -/
theorem witness_instructions_answer_next :
    [Instr.halt, .cls, .jp 0#12, .call 0#12, .seImm 0 0#8, .sneImm 0 0#8, .seReg 0 1, .ldImm 15 1#8, .addImm 15 1#8, .sneReg 0 1,
      .ldI 0xFFF#12, .jpV0 0#12, .skp 0, .sknp 0].map (fun i => seen State.pc (exec i State.reset)) =
      [some 0x200#16, some 0x202#16, some 0#16, some 0#16, some 0x204#16, some 0x202#16, some 0x204#16, some 0x202#16, some 0x202#16,
        some 0x202#16, some 0x202#16, some 0#16, some 0x204#16, some 0x202#16] := by decide

/-- ConstructLoadsTheImage, ConstructRefusesALongImage, ConstructedStateIsInRange: an image of the greatest length and one byte more. -/
theorem witness_images :
    (List.replicate 3584 0x11#8).length ≤ 3584 ∧ 3584 < (List.replicate 3585 0x11#8).length ∧ construct [] = .ok State.reset := by
  rw [List.length_replicate, List.length_replicate]
  exact ⟨by decide, by decide, by decide⟩

/-- StepKeepsTheReachableRanges, StepKeepsTheStateWellFormed, ReachableStatesAreInRangeWithTheirImage, StepRunsThePlacedWord: a state in
range and well-formed, reachable, whose step answers a next state. -/
theorem witness_in_range :
    State.reset.InRange ∧ State.reset.wf = true ∧ Reachable [] State.reset ∧ seen State.pc (step State.reset) = some 0x200#16 ∧
    decodeWord 0xA21E#16 = .ok (.ldI 0x21E#12) :=
  ⟨⟨by decide, by decide, by simp [State.reset], by decide⟩, by decide, ⟨State.reset, [], by decide, rfl⟩, by decide, by decide⟩

/-- StepKeepsTheReachableRanges: the ends of the ranges are themselves in range. -/
theorem witness_range_ends :
    ({ State.reset with index := 0x0FFF#16, pc := 0x0FFE#16, stack := List.replicate 16 0x0FFE#16 } : State).InRange :=
  ⟨by decide, by decide, by simp, by decide⟩

end Sys2Proof.Tests
end

section
/-! SUPPORT. What the dispatcher's and the step's parts answer, said once for the statements of 40_decode_dispatch.md: the decoder's
fields as numbers, the word at `PC`, the selected instruction, and the answer of each meaning. -/

namespace Sys2Proof.Laws
open Sys2Proof Sys2Proof.Machine

/-! ## The decoder's fields as numbers (40_decode_dispatch.md R71) -/

theorem fieldsOf_op_toNat (w : Word) : (fieldsOf w).op.toNat = w.toNat / 4096 :=
  (op_eq_iff.1 rfl).symm

theorem fieldsOf_immediate_toNat (w : Word) : (fieldsOf w).immediate.toNat = w.toNat % 256 :=
  (immediate_eq_iff.1 rfl).symm

theorem fieldsOf_address_toNat (w : Word) : (fieldsOf w).address.toNat = w.toNat % 4096 := by
  rw [fieldsOf, BitVec.extractLsb'_toNat, Nat.shiftRight_zero]

theorem fieldsOf_subop_toNat (w : Word) : (fieldsOf w).subop.toNat = w.toNat % 16 := by
  rw [fieldsOf, BitVec.extractLsb'_toNat, Nat.shiftRight_zero]

theorem fieldsOf_regX_val (w : Word) : (fieldsOf w).regX.val = w.toNat / 256 % 16 := by
  rw [fieldsOf, BitVec.val_toFin, BitVec.extractLsb'_toNat, Nat.shiftRight_eq_div_pow]

theorem fieldsOf_regY_val (w : Word) : (fieldsOf w).regY.val = w.toNat / 16 % 16 := by
  rw [fieldsOf, BitVec.val_toFin, BitVec.extractLsb'_toNat, Nat.shiftRight_eq_div_pow]

/-! ## The fetched word and the selected instruction (40_decode_dispatch.md R76, R77) -/

/-- Only the word 0x0000 is HALT. -/
theorem decodeWord_eq_halt_iff {w : Word} : decodeWord w = .ok .halt ↔ w = 0x0000#16 := by
  constructor
  · intro h
    have hd := dispatched w
    rw [h] at hd
    cases hd with
    | halt hw => exact BitVec.eq_of_toNat_eq hw
  · rintro rfl
    rfl

/-- The word at `PC` is the one the fetch answers. -/
theorem fetch_eq_ok_iff_wordAt {s : State} {w : Word} : s.fetch = .ok w ↔ s.WordAt w := by
  by_cases hpc : s.pc.toNat + 1 < Config.memSize
  · rw [fetch_of_lt hpc, Except.ok.injEq, ← BitVec.toNat_inj, wordOfBytes_toNat]
    exact ⟨fun h => ⟨hpc, h.symm⟩, fun h => h.2.symm⟩
  · rw [fetch_of_le (Nat.le_of_not_lt hpc)]
    exact ⟨nofun, fun h => absurd h.1 hpc⟩

/-- The step selects `i` exactly when the word at `PC` decodes to it. -/
theorem selected_eq_some_iff {s : State} {i : Instr} : s.selected = some i ↔ ∃ w, s.WordAt w ∧ decodeWord w = .ok i := by
  simp only [← fetch_eq_ok_iff_wordAt, State.selected]
  cases s.fetch with
  | error f => simp
  | ok w => cases hd : decodeWord w <;> simp [hd]

/-- HALT is selected exactly where the word at `PC` is 0x0000. -/
theorem selected_halt_iff {s : State} : s.selected = some .halt ↔ s.WordAt 0x0000#16 := by
  simp [selected_eq_some_iff, decodeWord_eq_halt_iff]

/-! ## The step request (40_decode_dispatch.md R79) -/

theorem stepPort_of_next {s t : State} (h : step s = .next t) :
    stepPort s = (t, if s.selected = some .halt then .halted else .continues) := by
  simp only [stepPort, h]

theorem stepPort_of_fault {s : State} {f : Fault} (h : step s = .fault f) : stepPort s = (s, .fatal f.record) := by
  simp only [stepPort, h]

/-! ## What the meanings that can raise, or draw, answer -/

/-- RET that raises nothing popped an entry and went past it (43_control_flow.md R123). -/
theorem exec_ret_eq_next {s t : State} (h : exec .ret s = .next t) :
    ∃ v u, s.pop = some (v, u) ∧ t = (u.jump v).advance := by
  simp only [exec, execRet] at h
  split at h
  · cases h
  · next v u hpop => cases h; exact ⟨v, u, hpop, rfl⟩

/-- CALL that raises nothing pushed `PC` and jumped (43_control_flow.md R125). -/
theorem exec_call_eq_next {a : Addr12} {s t : State} (h : exec (.call a) s = .next t) :
    ∃ u, s.push s.pc = some u ∧ t = u.jump (zextAddr a) := by
  simp only [exec, execCall] at h
  split at h
  · cases h
  · next u hpush => cases h; exact ⟨u, hpush, rfl⟩

/-- DRW that raises nothing read all its sprite bytes and drew them (42_display.md R102, R103). -/
theorem exec_drw_eq_next {x y : RegIx} {n : Nibble} {s t : State} (h : exec (.drw x y n) s = .next t) :
    ∃ sprite drawn, s.mem.readBytes s.index.toNat n.toNat = .ok sprite ∧
      drawn = drawSprite (s.reg x).toNat (s.reg y).toNat sprite (s.disp, false) ∧
      t = ({ s with disp := drawn.1 }.setReg vf (flagByte drawn.2)).advance := by
  simp only [exec, execDrw] at h
  split at h
  · cases h
  · next sprite hread => cases h; exact ⟨sprite, _, hread, rfl, rfl⟩

/-- RND raises nothing: it draws once and writes the masked byte (45_register_ops.md R163). -/
theorem exec_rnd (x : RegIx) (k : Byte) (s : State) :
    exec (.rnd x k) s = .next (s.drawByte.2.setReg x (s.drawByte.1 &&& k)).advance :=
  rfl

/-! ## The program counter (40_decode_dispatch.md R78) -/

theorem zextAddr_toNat (a : Addr12) : (zextAddr a).toNat = a.toNat :=
  BitVec.toNat_setWidth_of_le (by decide)

theorem zextByte_toNat (b : Byte) : (zextByte b).toNat = b.toNat :=
  BitVec.toNat_setWidth_of_le (by decide)

/-- JP_V0's sum is exact in 16 bits (43_control_flow.md R126). -/
theorem zextAddr_add_zextByte_toNat (a : Addr12) (b : Byte) : (zextAddr a + zextByte b).toNat = a.toNat + b.toNat := by
  have ha := a.isLt
  have hb := b.isLt
  rw [BitVec.toNat_add, zextAddr_toNat, zextByte_toNat]
  omega

/-- The auto-advance as a number. -/
theorem advance_pc_toNat (s : State) : s.advance.pc.toNat = (s.pc.toNat + 2) % 65536 := by
  rw [advance_pc, BitVec.toNat_add]
  rfl

theorem drawByte_snd_pc (s : State) : s.drawByte.2.pc = s.pc := by
  rw [drawByte_snd]

/-- The skip mechanism: 4 when the condition holds, else 2 (44_skips.md R140). -/
theorem skipIf_pc_toNat {cond : Bool} {s t : State} (h : skipIf cond s = .next t) :
    t.pc.toNat = (s.pc.toNat + if cond then 4 else 2) % 65536 := by
  cases h
  cases cond with
  | false => exact advance_pc_toNat s
  | true =>
    rw [if_pos rfl, if_pos rfl, advance_advance_pc, BitVec.toNat_add]
    rfl

end Sys2Proof.Laws
end

section
/-! PROOFS. The statements of the family 40_decode_dispatch.md. -/

namespace Sys2Proof.Proofs
open Sys2Proof Sys2Proof.Machine Sys2Proof.Laws

/-- Settles O16: the step request answers by the selected instruction, which is HALT exactly where the word at `PC` is 0x0000. -/
theorem stepOutcomeIsHaltedContinueOrFatal : Obligations.StepOutcomeIsHaltedContinueOrFatal := by
  intro s
  refine ⟨fun t hstep hword => ?halted, fun t hstep hword => ?continues, fun f hstep => ?fatal⟩
  case halted => rw [stepPort_of_next hstep, if_pos (selected_halt_iff.2 hword)]
  case continues => rw [stepPort_of_next hstep, if_neg (mt selected_halt_iff.1 hword)]
  case fatal => rw [stepPort_of_fault hstep]

/-- Settles O41, one case per row of the program-counter table: the skips by `skipIf_pc_toNat`, the redirects by their target, the
rest by the auto-advance. -/
theorem pcUpdateOfEveryInstr : Obligations.PcUpdateOfEveryInstr := by
  intro i s t h
  cases i with
  | halt => cases h; rfl
  | cls => cases h; rfl
  | ret =>
    obtain ⟨v, u, hpop, rfl⟩ := exec_ret_eq_next h
    obtain ⟨hstack, -⟩ := pop_eq_some hpop
    exact ⟨v, by rw [hstack, List.getLast?_concat], advance_pc_toNat (u.jump v)⟩
  | jp a => cases h; exact zextAddr_toNat a
  | call a =>
    obtain ⟨u, -, rfl⟩ := exec_call_eq_next h
    exact zextAddr_toNat a
  | seImm x k => simpa using skipIf_pc_toNat h
  | sneImm x k => simpa using skipIf_pc_toNat h
  | seReg x y => simpa using skipIf_pc_toNat h
  | ldImm x k => cases h; exact advance_pc_toNat (s.setReg x k)
  | addImm x k => cases h; exact advance_pc_toNat (s.setReg x (s.reg x + k))
  | sneReg x y => simpa using skipIf_pc_toNat h
  | ldI a => cases h; exact advance_pc_toNat (s.setIndex (zextAddr a))
  | jpV0 a => cases h; exact zextAddr_add_zextByte_toNat a (s.reg 0)
  | rnd x k =>
    rw [exec_rnd] at h
    cases h
    rw [advance_pc_toNat, setReg_pc, drawByte_snd_pc]
  | drw x y n =>
    obtain ⟨sprite, drawn, -, -, rfl⟩ := exec_drw_eq_next h
    rw [advance_pc_toNat, setReg_pc]
  | skp x => simpa [State.sampledKey] using skipIf_pc_toNat h
  | sknp x => simpa [State.sampledKey] using skipIf_pc_toNat h

/-- Settles O4: each field's number is its slice of the word's. -/
theorem decoderFieldsAreBitSlices : Obligations.DecoderFieldsAreBitSlices := fun w =>
  ⟨fieldsOf_address_toNat w, fieldsOf_immediate_toNat w, fieldsOf_regX_val w, fieldsOf_regY_val w, fieldsOf_subop_toNat w,
    fieldsOf_op_toNat w⟩

end Sys2Proof.Proofs
end

section
/-! SUPPORT. Dispatch of the words without operands, when a step answers Continue, and what clearing the display leaves, said once for
the statements of 42_display.md. -/

namespace Sys2Proof.Laws
open Sys2Proof Sys2Proof.Machine

/-- An instruction without operands has one word, its encoding (30_encoding.md R55: mask 0xFFFF). -/
theorem decodeWord_eq_ok_iff_of_operands_nil {w : Word} {i : Instr} (hi : i.operands = []) : decodeWord w = .ok i ↔ w = encode i := by
  constructor
  · intro h
    have hd := dispatched w
    rw [h] at hd
    cases hd with
    | halt hw | cls hw | ret hw => exact BitVec.eq_of_toNat_eq hw
    | _ => cases hi
  · rintro rfl
    cases i with
    | halt | cls | ret => rfl
    | _ => cases hi

/-- Only HALT answers Halted (40_decode_dispatch.md R79). -/
theorem stepContinues_of_ne_halt {i : Instr} (hi : i ≠ .halt) : StepContinues i := by
  intro s t w hword hdecode hexec
  have hstep : step s = .next t := by rw [step_of_decode_ok (fetch_eq_ok_iff_wordAt.2 hword) hdecode, hexec]
  have hselected : s.selected = some i := selected_eq_some_iff.2 ⟨w, hword, hdecode⟩
  rw [stepPort_of_next hstep, hselected, if_neg (mt Option.some.inj hi)]

/-- CLS raises nothing (42_display.md R101). -/
theorem exec_cls (s : State) : exec .cls s = .next { s with disp := Display.blank }.advance :=
  rfl

@[simp] theorem pixel_blank (s : State) (row : Fin 32) (col : Fin 64) :
    ({ s with disp := Display.blank } : State).pixel row col = false := by
  simp [State.pixel, Display.blank]

end Sys2Proof.Laws
end

section
/-! PROOFS. The statement of the family 42_display.md. -/

namespace Sys2Proof.Proofs
open Sys2Proof Sys2Proof.Machine Sys2Proof.Laws

/-- Settles O20: the word by dispatch, the state as the blank display with `PC` advanced, the outcome because CLS is not HALT. -/
theorem clsClearsEveryPixel : Obligations.ClsClearsEveryPixel := by
  refine ⟨fun w => decodeWord_eq_ok_iff_of_operands_nil rfl, fun s => ?state, stepContinues_of_ne_halt (by simp)⟩
  case state =>
    refine ⟨_, exec_cls s, fun row col => ?pixels, rfl⟩
    case pixels => rw [pixel_advance, pixel_blank]

end Sys2Proof.Proofs
end

section
/-! SUPPORT. What the control transfers answer, which words they are, and what each instruction does to the stack, said once for the
statements of 43_control_flow.md. -/

namespace Sys2Proof.Laws
open Sys2Proof Sys2Proof.Machine

/-! ## Dispatch, from the word's numbers to the answer -/

/-- The conditions of two rows exclude each other, so a condition that holds decides the dispatcher's answer
(40_decode_dispatch.md R77). -/
theorem Dispatched.decodeWord_eq {w : Word} {r : Except DecodeError Instr} (h : Dispatched w r) : decodeWord w = r := by
  have hd := dispatched w
  generalize decodeWord w = q at hd ⊢
  -- omega closes every pair of different rows; what is left is each row against itself
  cases hd <;> cases h <;> try omega
  all_goals rfl

/-! ## The operands as words -/

theorem zextAddr_eq_ofNat (a : Addr12) : zextAddr a = BitVec.ofNat 16 a.toNat :=
  (BitVec.ofNat_toNat 16 a).symm

theorem encode_call_eq_ofNat (a : Addr12) : encode (.call a) = BitVec.ofNat 16 (0x2000 + a.toNat) := by
  have ha := a.isLt
  apply BitVec.eq_of_toNat_eq
  rw [encode, encAddr_toNat, BitVec.toNat_ofNat, BitVec.toNat_ofNat]
  omega

/-! ## What each control transfer answers (43_control_flow.md R123 to R125) -/

theorem exec_ret_of_append {s : State} {below : List Word} {top : Word} (h : s.stack = below ++ [top]) :
    exec .ret s = .next { s with stack := below, pc := top + 2#16 } := by
  simp only [exec, execRet, pop_append h]
  rfl

theorem exec_ret_of_nil {s : State} (h : s.stack = []) : exec .ret s = .fault (.stackUnderflow s.pc 0x00EE#16) := by
  simp only [exec, execRet, pop_nil h]
  rfl

theorem exec_jp (a : Addr12) (s : State) : exec (.jp a) s = .next (s.jump (zextAddr a)) :=
  rfl

theorem exec_call_of_lt {s : State} (a : Addr12) (h : s.stack.length < 16) :
    exec (.call a) s = .next { s with stack := s.stack ++ [s.pc], pc := zextAddr a } := by
  simp only [exec, execCall, push_of_lt s.pc h]
  rfl

theorem exec_call_of_le {s : State} (a : Addr12) (h : 16 ≤ s.stack.length) :
    exec (.call a) s = .fault (.stackOverflow s.pc (encode (.call a))) := by
  simp only [exec, execCall, push_of_le s.pc h]
  rfl

/-! ## A fatal condition leaves the state (60_exceptions.md R186) -/

theorem stepPort_of_exec_fault {s : State} {w : Word} {i : Instr} {f : Fault} (hword : s.WordAt w) (hdecode : decodeWord w = .ok i)
    (h : exec i s = .fault f) : stepPort s = (s, .fatal f.record) :=
  stepPort_of_fault (by rw [step_of_decode_ok (fetch_eq_ok_iff_wordAt.2 hword) hdecode, h])

theorem stepPort_fst_of_fatal {s : State} {r : FatalRecord} (h : (stepPort s).2 = .fatal r) : (stepPort s).1 = s := by
  cases hstep : step s with
  | next t =>
    rw [stepPort_of_next hstep] at h
    split at h <;> cases h
  | fault f => rw [stepPort_of_fault hstep]
  | refused q => simp only [stepPort, hstep]

/-! ## The stack (43_control_flow.md R122) -/

theorem construct_stack {image : List Byte} {s : State} (h : construct image = .ok s) : s.stack = [] := by
  rw [construct] at h
  split at h <;> cases h
  rfl

/-- A push that succeeds found room and changes the stack alone. -/
theorem push_eq_some {s t : State} {v : Word} (h : s.push v = some t) :
    s.stack.length < 16 ∧ t = { s with stack := s.stack ++ [v] } := by
  by_cases hlt : s.stack.length < 16
  · rw [push_of_lt v hlt] at h
    exact ⟨hlt, (Option.some.inj h).symm⟩
  · rw [push_of_le v (Nat.le_of_not_lt hlt)] at h
    cases h

theorem exec_call_stack {a : Addr12} {s t : State} (h : exec (.call a) s = .next t) :
    s.stack.length < 16 ∧ t.stack = s.stack ++ [s.pc] := by
  obtain ⟨u, hpush, rfl⟩ := exec_call_eq_next h
  obtain ⟨hlt, rfl⟩ := push_eq_some hpush
  exact ⟨hlt, rfl⟩

theorem exec_ret_stack {s t : State} (h : exec .ret s = .next t) : ∃ v, s.stack = t.stack ++ [v] := by
  obtain ⟨v, u, hpop, rfl⟩ := exec_ret_eq_next h
  exact ⟨v, (pop_eq_some hpop).1⟩

theorem skipIf_stack {cond : Bool} {s t : State} (h : skipIf cond s = .next t) : t.stack = s.stack := by
  cases h
  cases cond <;> rfl

/-- Every instruction but CALL and RET leaves the stack. -/
theorem exec_stack_of_ne {i : Instr} {s t : State} (hcall : ∀ a, i ≠ .call a) (hret : i ≠ .ret) (h : exec i s = .next t) :
    t.stack = s.stack := by
  cases i with
  | call a => exact absurd rfl (hcall a)
  | ret => exact absurd rfl hret
  | seImm | sneImm | seReg | sneReg | skp | sknp => exact skipIf_stack h
  | drw x y n =>
    obtain ⟨sprite, drawn, -, -, rfl⟩ := exec_drw_eq_next h
    rfl
  | rnd x k =>
    rw [exec_rnd] at h
    cases h
    rw [advance_stack, setReg_stack, drawByte_snd]
  | halt | cls | jp | ldImm | addImm | ldI | jpV0 =>
    cases h
    rfl

/-- Only CALL can lengthen the stack, and it succeeds only with room, so no instruction takes it past 16 entries. -/
theorem exec_stack_length_le {i : Instr} {s t : State} (h : exec i s = .next t) (hs : s.stack.length ≤ 16) : t.stack.length ≤ 16 := by
  by_cases hcall : ∃ a, i = .call a
  · obtain ⟨a, rfl⟩ := hcall
    obtain ⟨hlt, ht⟩ := exec_call_stack h
    rwa [ht, List.length_append, List.length_singleton]
  by_cases hret : i = .ret
  · subst hret
    obtain ⟨v, hv⟩ := exec_ret_stack h
    rw [hv, List.length_append] at hs
    exact Nat.le_of_add_right_le hs
  rwa [exec_stack_of_ne (not_exists.1 hcall) hret h]

end Sys2Proof.Laws
end

section
/-! PROOFS. The statements of the family 43_control_flow.md. -/

namespace Sys2Proof.Proofs
open Sys2Proof Sys2Proof.Machine Sys2Proof.Laws

/-- Settles O42: CALL pushes one entry where there is room, RET pops one, and no other instruction and no fatal condition touches the
stack. -/
theorem stackChangesOnlyByCallAndRet : Obligations.StackChangesOnlyByCallAndRet := by
  refine ⟨fun _ _ => construct_stack, fun s r hfatal => ?fatal, fun i s t h => ⟨?call, ?ret, ?other, ?bound⟩⟩
  case fatal => rw [stepPort_fst_of_fatal hfatal]
  case call =>
    rintro ⟨a, rfl⟩
    exact (exec_call_stack h).2
  case ret =>
    rintro rfl
    exact exec_ret_stack h
  case other => exact fun hcall hret => exec_stack_of_ne hcall hret h
  case bound => exact exec_stack_length_le h

/-- Settles O25: the word by dispatch, the next state by whether the stack has a last entry, the outcome because RET is not HALT. -/
theorem retPopsAndAdvances : Obligations.RetPopsAndAdvances := by
  refine ⟨fun w => decodeWord_eq_ok_iff_of_operands_nil rfl, fun s below top hstack => ?pop, fun s => exec_ret_of_nil,
    fun s hword hstack => ?underflow, stepContinues_of_ne_halt (by simp)⟩
  case pop =>
    have hpc : BitVec.ofNat 16 ((top.toNat + 2) % 65536) = top + 2#16 := by
      apply BitVec.eq_of_toNat_eq
      rw [BitVec.toNat_ofNat, BitVec.toNat_add, Nat.mod_mod]
      rfl
    rw [exec_ret_of_append hstack, hpc]
  case underflow => rw [stepPort_of_exec_fault hword rfl (exec_ret_of_nil hstack)]

/-- Settles O26: the word by its high nibble, the next state as a redirect, the outcome because JP is not HALT. -/
theorem jpSetsThePc : Obligations.JpSetsThePc := by
  refine ⟨fun w hop => ⟨_, (Dispatched.jp hop).decodeWord_eq, fieldsOf_address_toNat w⟩,
    fun a => ⟨fun s => ?state, stepContinues_of_ne_halt (by simp)⟩⟩
  case state => rw [exec_jp, State.jump, zextAddr_eq_ofNat]

/-- Settles O27: the word by its high nibble, the next state by whether the stack has room, the outcome because CALL is not HALT. -/
theorem callPushesItsOwnAddress : Obligations.CallPushesItsOwnAddress := by
  refine ⟨fun w hop => ⟨_, (Dispatched.call hop).decodeWord_eq, fieldsOf_address_toNat w⟩, fun a s hlt => ?push,
    fun a s hfull => ?overflow, fun s w hword hop hfull => ?kept, fun a => stepContinues_of_ne_halt (by simp)⟩
  case push => rw [exec_call_of_lt a hlt, zextAddr_eq_ofNat]
  case overflow => rw [exec_call_of_le a hfull.ge, encode_call_eq_ofNat]
  case kept => rw [stepPort_of_exec_fault hword (Dispatched.call hop).decodeWord_eq (exec_call_of_le _ hfull.ge)]

end Sys2Proof.Proofs
end

section
/-! SUPPORT. What the skip mechanism answers, said once for the statements of 44_skips.md. -/

namespace Sys2Proof.Laws
open Sys2Proof Sys2Proof.Machine

/-- The skip mechanism with its Boolean test read as the proposition `P` it decides: `PC` grows by 4 when `P` holds and by 2 when it
does not, and nothing else changes (44_skips.md R140). -/
theorem skipIf_eq_next {cond : Bool} {P : Prop} [Decidable P] (hP : cond = true ↔ P) (s : State) :
    skipIf cond s = .next { s with pc := if P then s.pc + 4#16 else s.pc + 2#16 } := by
  by_cases h : P
  · rw [if_pos h, skipIf, if_pos (hP.2 h), ← advance_advance_pc]
    rfl
  · rw [if_neg h, skipIf, if_neg (mt hP.1 h)]
    rfl

end Sys2Proof.Laws
end

section
/-! PROOFS. The statements of the family 44_skips.md. -/

namespace Sys2Proof.Proofs
open Sys2Proof Sys2Proof.Machine Sys2Proof.Laws

/-- Settles O31: the words by their high nibble, the next state by the skip mechanism with the register compared with the immediate,
the outcome because neither instruction is HALT. -/
theorem immediateSkips : Obligations.ImmediateSkips := by
  refine ⟨fun w hop => ?seImm, fun w hop => ?sneImm, fun x k s => ⟨skipIf_eq_next beq_iff_eq s, skipIf_eq_next bne_iff_ne s⟩,
    fun x k => ⟨stepContinues_of_ne_halt (by simp), stepContinues_of_ne_halt (by simp)⟩⟩
  case seImm => exact ⟨_, _, (Dispatched.seImm hop).decodeWord_eq, fieldsOf_regX_val w, fieldsOf_immediate_toNat w⟩
  case sneImm => exact ⟨_, _, (Dispatched.sneImm hop).decodeWord_eq, fieldsOf_regX_val w, fieldsOf_immediate_toNat w⟩

/-- Settles O32: the words by their high nibble alone, the next state by the skip mechanism with the two registers compared, the
outcome because neither instruction is HALT. -/
theorem registerSkips : Obligations.RegisterSkips := by
  refine ⟨fun w hop => ?seReg, fun w hop => ?sneReg, fun x y s => ⟨skipIf_eq_next beq_iff_eq s, skipIf_eq_next bne_iff_ne s⟩,
    fun x y => ⟨stepContinues_of_ne_halt (by simp), stepContinues_of_ne_halt (by simp)⟩⟩
  case seReg => exact ⟨_, _, (Dispatched.seReg hop).decodeWord_eq, fieldsOf_regX_val w, fieldsOf_regY_val w⟩
  case sneReg => exact ⟨_, _, (Dispatched.sneReg hop).decodeWord_eq, fieldsOf_regX_val w, fieldsOf_regY_val w⟩

/-- Settles O33: the words by their high nibble and low byte, the next state by the skip mechanism with the register compared with the
key latch, the outcome because neither instruction is HALT. -/
theorem keySkips : Obligations.KeySkips := by
  refine ⟨fun w hop hlow => ?skp, fun w hop hlow => ?sknp, fun w hop hskp hsknp => ?unknown,
    fun x s => ⟨skipIf_eq_next beq_iff_eq s, skipIf_eq_next bne_iff_ne s⟩,
    fun x => ⟨stepContinues_of_ne_halt (by simp), stepContinues_of_ne_halt (by simp)⟩⟩
  case skp => exact ⟨_, (Dispatched.skp hop hlow).decodeWord_eq, fieldsOf_regX_val w⟩
  case sknp => exact ⟨_, (Dispatched.sknp hop hlow).decodeWord_eq, fieldsOf_regX_val w⟩
  case unknown => exact (Dispatched.unknown (.inr (.inr (.inl ⟨hop, hskp, hsknp⟩)))).decodeWord_eq

end Sys2Proof.Proofs
end

section
/-! SUPPORT. What the register instructions that draw no byte answer, said once for the statements of 45_register_ops.md. -/

namespace Sys2Proof.Laws
open Sys2Proof Sys2Proof.Machine

theorem exec_ldImm (x : RegIx) (k : Byte) (s : State) : exec (.ldImm x k) s = .next (s.setReg x k).advance :=
  rfl

theorem exec_addImm (x : RegIx) (k : Byte) (s : State) : exec (.addImm x k) s = .next (s.setReg x (s.reg x + k)).advance :=
  rfl

theorem exec_ldI (a : Addr12) (s : State) : exec (.ldI a) s = .next (s.setIndex (zextAddr a)).advance :=
  rfl

/-- The frame of a register write followed by the auto-advance: the other registers, and every field but the registers and `PC`. -/
theorem advance_setReg_frame (x : RegIx) (b : Byte) (s : State) :
    (∀ r, r ≠ x → (s.setReg x b).advance.reg r = s.reg r) ∧
      (s.setReg x b).advance = { s with v := (s.setReg x b).advance.v, pc := s.pc + 2#16 } :=
  ⟨fun r hr => by rw [reg_advance, reg_setReg_of_ne _ _ _ _ hr], rfl⟩

end Sys2Proof.Laws
end

section
/-! PROOFS. The statements of the family 45_register_ops.md. -/

namespace Sys2Proof.Proofs
open Sys2Proof Sys2Proof.Machine Sys2Proof.Laws

/-- Settles O34: the word by its high nibble, the register by the write, the rest by the write's frame, the outcome because LD_IMM is
not HALT. -/
theorem ldImmLoadsTheImmediate : Obligations.LdImmLoadsTheImmediate := by
  refine ⟨fun w hop => ?word, fun x k s => ⟨_, exec_ldImm x k s, ?register, advance_setReg_frame x _ s⟩,
    fun x k => stepContinues_of_ne_halt (by simp)⟩
  case word => exact ⟨_, _, (Dispatched.ldImm hop).decodeWord_eq, fieldsOf_regX_val w, fieldsOf_immediate_toNat w⟩
  case register => rw [reg_advance, reg_setReg_self]

/-- Settles O35: the word by its high nibble, the register by the 8-bit sum, the rest, VF among it, by the write's frame, the outcome
because ADD_IMM is not HALT. -/
theorem addImmWrapsWithoutCarry : Obligations.AddImmWrapsWithoutCarry := by
  refine ⟨fun w hop => ?word, fun x k s => ⟨_, exec_addImm x k s, ?sum, advance_setReg_frame x _ s⟩,
    fun x k => stepContinues_of_ne_halt (by simp)⟩
  case word => exact ⟨_, _, (Dispatched.addImm hop).decodeWord_eq, fieldsOf_regX_val w, fieldsOf_immediate_toNat w⟩
  case sum => rw [reg_advance, reg_setReg_self, BitVec.toNat_add]

/-- Settles O36: the word by its high nibble, the next state as a write of the index register, the outcome because LD_I is not HALT. -/
theorem ldILoadsTheAddress : Obligations.LdILoadsTheAddress := by
  refine ⟨fun w hop => ⟨_, (Dispatched.ldI hop).decodeWord_eq, fieldsOf_address_toNat w⟩,
    fun a => ⟨fun s => ?state, stepContinues_of_ne_halt (by simp)⟩⟩
  case state =>
    rw [exec_ldI, zextAddr_eq_ofNat]
    rfl

end Sys2Proof.Proofs
end

section
/-! SUPPORT. The encoder and the decoder as inverses, and the rows of the opcode table as conditions in numbers, said once for the
statements of 30_encoding.md. -/

namespace Sys2Proof.Laws
open Sys2Proof Sys2Proof.Machine

/-! ## The encoded word's dispatch -/

/-- The encoded word meets the condition of its instruction's row, and its fields are the operands. -/
theorem dispatched_encode (i : Instr) : Dispatched (encode i) (.ok i) := by
  cases i with
  | halt => exact .halt rfl
  | cls => exact .cls rfl
  | ret => exact .ret rfl
  | jp a => simpa only [encode, fieldsOf_encAddr] using Dispatched.jp (encAddr_op 0x1#4 a)
  | call a => simpa only [encode, fieldsOf_encAddr] using Dispatched.call (encAddr_op 0x2#4 a)
  | seImm x k => simpa only [encode, fieldsOf_encRegImm] using Dispatched.seImm (encRegImm_op 0x3#4 x k)
  | sneImm x k => simpa only [encode, fieldsOf_encRegImm] using Dispatched.sneImm (encRegImm_op 0x4#4 x k)
  | seReg x y => simpa only [encode, fieldsOf_encRegReg] using Dispatched.seReg (encRegReg_op 0x5#4 x y 0x0#4)
  | ldImm x k => simpa only [encode, fieldsOf_encRegImm] using Dispatched.ldImm (encRegImm_op 0x6#4 x k)
  | addImm x k => simpa only [encode, fieldsOf_encRegImm] using Dispatched.addImm (encRegImm_op 0x7#4 x k)
  | sneReg x y => simpa only [encode, fieldsOf_encRegReg] using Dispatched.sneReg (encRegReg_op 0x9#4 x y 0x0#4)
  | ldI a => simpa only [encode, fieldsOf_encAddr] using Dispatched.ldI (encAddr_op 0xA#4 a)
  | jpV0 a => simpa only [encode, fieldsOf_encAddr] using Dispatched.jpV0 (encAddr_op 0xB#4 a)
  | rnd x k => simpa only [encode, fieldsOf_encRegImm] using Dispatched.rnd (encRegImm_op 0xC#4 x k)
  | drw x y n => simpa only [encode, fieldsOf_encRegReg] using Dispatched.drw (encRegReg_op 0xD#4 x y n)
  | skp x =>
    simpa only [encode, fieldsOf_encRegImm] using Dispatched.skp (encRegImm_op 0xE#4 x 0x9E#8) (encRegImm_low 0xE#4 x 0x9E#8)
  | sknp x =>
    simpa only [encode, fieldsOf_encRegImm] using Dispatched.sknp (encRegImm_op 0xE#4 x 0xA1#8) (encRegImm_low 0xE#4 x 0xA1#8)

theorem decodeWord_encode (i : Instr) : decodeWord (encode i) = .ok i :=
  (dispatched_encode i).decodeWord_eq

/-! ## A word put together from its fields -/

theorem encAddr_fieldsOf {w : Word} {op : Nibble} (h : w.toNat / 4096 = op.toNat) : encAddr op (fieldsOf w).address = w := by
  apply BitVec.eq_of_toNat_eq
  rw [encAddr_toNat, fieldsOf_address_toNat]
  omega

theorem encRegImm_fieldsOf {w : Word} {op : Nibble} {k : Byte} (h : w.toNat / 4096 = op.toNat) (hk : w.toNat % 256 = k.toNat) :
    encRegImm op (fieldsOf w).regX k = w := by
  apply BitVec.eq_of_toNat_eq
  rw [encRegImm_toNat, fieldsOf_regX_val]
  omega

theorem encRegReg_fieldsOf {w : Word} {op : Nibble} (h : w.toNat / 4096 = op.toNat) :
    encRegReg op (fieldsOf w).regX (fieldsOf w).regY (fieldsOf w).subop = w := by
  apply BitVec.eq_of_toNat_eq
  rw [encRegReg_toNat, fieldsOf_regX_val, fieldsOf_regY_val, fieldsOf_subop_toNat]
  omega

/-- `W & 0xFFF0` clears the low nibble. -/
theorem and_lowNibbleMask_toNat (w : Word) : (w &&& 0xFFF0#16).toNat = w.toNat / 16 * 16 := by
  have h : w &&& 0xFFF0#16 = (w >>> 4) <<< 4 := by
    apply BitVec.eq_of_getLsbD_eq
    intro k hk
    interval_cases k <;> simp
  have := w.isLt
  rw [h, BitVec.toNat_shiftLeft, BitVec.toNat_ushiftRight, Nat.shiftRight_eq_div_pow, Nat.shiftLeft_eq]
  omega

/-- With the low nibble left out, the word comes back with that nibble 0 (30_encoding.md R57, R61). -/
theorem encRegReg_zero_fieldsOf {w : Word} {op : Nibble} (h : w.toNat / 4096 = op.toNat) :
    encRegReg op (fieldsOf w).regX (fieldsOf w).regY 0x0#4 = w &&& 0xFFF0#16 := by
  apply BitVec.eq_of_toNat_eq
  rw [encRegReg_toNat, fieldsOf_regX_val, fieldsOf_regY_val, and_lowNibbleMask_toNat, BitVec.toNat_ofNat]
  omega

/-! ## The rows of the opcode table as conditions in numbers (30_encoding.md R54, R55) -/

theorem selects_fullMask_iff {m : String} {w p : Word} : (OpcodeRow.mk m 0xFFFF#16 p).selects w = true ↔ w.toNat = p.toNat := by
  have h : w &&& 0xFFFF#16 = w := BitVec.and_allOnes
  rw [OpcodeRow.selects, beq_iff_eq, h, BitVec.toNat_inj]

theorem selects_opMask_iff {m : String} {w p : Word} :
    (OpcodeRow.mk m 0xF000#16 p).selects w = true ↔ w.toNat / 4096 * 4096 = p.toNat := by
  have := w.isLt
  rw [OpcodeRow.selects, beq_iff_eq, and_opMask, ← BitVec.toNat_inj, BitVec.toNat_ofNat, Nat.mod_eq_of_lt (by omega)]

theorem selects_keyMask_iff {m : String} {w p : Word} :
    (OpcodeRow.mk m 0xF0FF#16 p).selects w = true ↔ w.toNat / 4096 * 4096 + w.toNat % 256 = p.toNat := by
  have := w.isLt
  rw [OpcodeRow.selects, beq_iff_eq, and_keyMask, ← BitVec.toNat_inj, BitVec.toNat_ofNat, Nat.mod_eq_of_lt (by omega)]

/-- Two rows that select one word demand the same bits where their masks meet. -/
theorem selects_overlap {r q : OpcodeRow} {w : Word} (hr : r.selects w = true) (hq : q.selects w = true) :
    r.pattern &&& q.mask = q.pattern &&& r.mask := by
  rw [OpcodeRow.selects, beq_iff_eq] at hr hq
  rw [← hr, ← hq, BitVec.and_assoc, BitVec.and_assoc, BitVec.and_comm r.mask]

/-- No two rows of the table demand the same bits where their masks meet. -/
theorem opcodeTable_no_overlap :
    ∀ r ∈ opcodeTable, ∀ q ∈ opcodeTable, r.pattern &&& q.mask = q.pattern &&& r.mask → r = q := by
  decide

/-- The ranges of 30_encoding.md R58 are what the 17 rows leave. -/
theorem illegalWord_iff_no_row (w : Word) : IllegalWord w ↔ ∀ r ∈ opcodeTable, r.selects w = false := by
  have := w.isLt
  simp only [opcodeTable, List.forall_mem_append, List.forall_mem_cons, List.not_mem_nil, IsEmpty.forall_iff,
    implies_true, and_true, ← Bool.not_eq_true, selects_fullMask_iff, selects_opMask_iff, selects_keyMask_iff, IllegalWord, BitVec.toNat_ofNat]
  omega

/-! ## What the dispatcher answers -/

/-- The dispatcher rejects the illegal words and no others. -/
theorem illegalWord_iff_decodeWord (w : Word) : IllegalWord w ↔ decodeWord w = .error (.unknownOpcode w) := by
  have := w.isLt
  constructor
  · intro h
    refine (Dispatched.unknown ?_).decodeWord_eq
    rw [IllegalWord] at h
    omega
  · intro h
    have hd := dispatched w
    rw [h] at hd
    cases hd with
    | unknown hw =>
      rw [IllegalWord]
      omega

theorem decodeWord_error {w : Word} {e : DecodeError} (h : decodeWord w = .error e) : e = .unknownOpcode w := by
  have hd := dispatched w
  rw [h] at hd
  cases hd
  rfl

/-- A legal word is selected by the row with its instruction's mnemonic. -/
theorem exists_row_of_decodeWord {w : Word} {i : Instr} (h : decodeWord w = .ok i) :
    ∃ r ∈ opcodeTable, r.selects w = true ∧ r.mnemonic = i.mnemonic := by
  have hd := dispatched w
  rw [h] at hd
  cases hd with
  | halt hw => exact ⟨⟨"HALT", 0xFFFF#16, 0x0000#16⟩, by decide, selects_fullMask_iff.2 hw, rfl⟩
  | cls hw => exact ⟨⟨"CLS", 0xFFFF#16, 0x00E0#16⟩, by decide, selects_fullMask_iff.2 hw, rfl⟩
  | ret hw => exact ⟨⟨"RET", 0xFFFF#16, 0x00EE#16⟩, by decide, selects_fullMask_iff.2 hw, rfl⟩
  | jp hw => exact ⟨⟨"JP", 0xF000#16, 0x1000#16⟩, by decide, selects_op (op := 0x1#4) hw rfl, rfl⟩
  | call hw => exact ⟨⟨"CALL", 0xF000#16, 0x2000#16⟩, by decide, selects_op (op := 0x2#4) hw rfl, rfl⟩
  | seImm hw => exact ⟨⟨"SE_IMM", 0xF000#16, 0x3000#16⟩, by decide, selects_op (op := 0x3#4) hw rfl, rfl⟩
  | sneImm hw => exact ⟨⟨"SNE_IMM", 0xF000#16, 0x4000#16⟩, by decide, selects_op (op := 0x4#4) hw rfl, rfl⟩
  | seReg hw => exact ⟨⟨"SE_REG", 0xF000#16, 0x5000#16⟩, by decide, selects_op (op := 0x5#4) hw rfl, rfl⟩
  | ldImm hw => exact ⟨⟨"LD_IMM", 0xF000#16, 0x6000#16⟩, by decide, selects_op (op := 0x6#4) hw rfl, rfl⟩
  | addImm hw => exact ⟨⟨"ADD_IMM", 0xF000#16, 0x7000#16⟩, by decide, selects_op (op := 0x7#4) hw rfl, rfl⟩
  | sneReg hw => exact ⟨⟨"SNE_REG", 0xF000#16, 0x9000#16⟩, by decide, selects_op (op := 0x9#4) hw rfl, rfl⟩
  | ldI hw => exact ⟨⟨"LD_I", 0xF000#16, 0xA000#16⟩, by decide, selects_op (op := 0xA#4) hw rfl, rfl⟩
  | jpV0 hw => exact ⟨⟨"JP_V0", 0xF000#16, 0xB000#16⟩, by decide, selects_op (op := 0xB#4) hw rfl, rfl⟩
  | rnd hw => exact ⟨⟨"RND", 0xF000#16, 0xC000#16⟩, by decide, selects_op (op := 0xC#4) hw rfl, rfl⟩
  | drw hw => exact ⟨⟨"DRW", 0xF000#16, 0xD000#16⟩, by decide, selects_op (op := 0xD#4) hw rfl, rfl⟩
  | skp hw hk => exact ⟨⟨"SKP", 0xF0FF#16, 0xE09E#16⟩, by decide, selects_key (op := 0xE#4) (k := 0x9E#8) hw hk rfl, rfl⟩
  | sknp hw hk => exact ⟨⟨"SKNP", 0xF0FF#16, 0xE0A1#16⟩, by decide, selects_key (op := 0xE#4) (k := 0xA1#8) hw hk rfl, rfl⟩

/-- The register fields lie above the low nibble. -/
theorem regX_regY_eq_of_div {w u : Word} (h : w.toNat / 16 = u.toNat / 16) :
    (fieldsOf w).regX = (fieldsOf u).regX ∧ (fieldsOf w).regY = (fieldsOf u).regY := by
  constructor <;> apply Fin.ext
  · rw [fieldsOf_regX_val, fieldsOf_regX_val]
    omega
  · rw [fieldsOf_regY_val, fieldsOf_regY_val, h]

end Sys2Proof.Laws
end

section
/-! PROOFS. The statements of the family 30_encoding.md and of the decoder's fields. -/

namespace Sys2Proof.Proofs
open Sys2Proof Sys2Proof.Machine Sys2Proof.Laws

/-- Settles O1: the encoded word meets its row's condition, and the decoder on bytes reads the word of the first two. -/
theorem decodeInvertsEncode : Obligations.DecodeInvertsEncode := by
  refine fun i => ⟨decodeWord_encode i, fun rest => ?bytes⟩
  case bytes =>
    rw [bytesOfWord, List.cons_append, List.cons_append, List.nil_append, decode_pair, wordOfBytes_hiByte_loByte,
      decodeWord_encode]
    rfl

/-- Settles O2, one case per condition of the dispatcher: the word is put together again from the fields it was taken apart into. -/
theorem encodeInvertsDecode : Obligations.EncodeInvertsDecode := by
  intro w i h
  have hd := dispatched w
  rw [h] at hd
  cases hd with
  | halt hw | cls hw | ret hw =>
    rw [if_neg (by omega)]
    exact BitVec.eq_of_toNat_eq hw.symm
  | jp hw | call hw | ldI hw | jpV0 hw =>
    rw [if_neg (by omega)]
    exact encAddr_fieldsOf hw
  | seImm hw | sneImm hw | ldImm hw | addImm hw | rnd hw =>
    rw [if_neg (by omega)]
    exact encRegImm_fieldsOf hw (fieldsOf_immediate_toNat w).symm
  | seReg hw | sneReg hw =>
    rw [if_pos (by omega)]
    exact encRegReg_zero_fieldsOf hw
  | drw hw =>
    rw [if_neg (by omega)]
    exact encRegReg_fieldsOf hw
  | skp hw hk | sknp hw hk =>
    rw [if_neg (by omega)]
    exact encRegImm_fieldsOf hw hk

/-- Settles O3: both words are of the same family, and the two registers lie above the low nibble. -/
theorem lowNibbleOfRegisterSkipsIgnored : Obligations.LowNibbleOfRegisterSkipsIgnored := by
  intro w u hop hdiv
  obtain ⟨hx, hy⟩ := regX_regY_eq_of_div hdiv
  rcases hop with h5 | h9
  · have hu : u.toNat / 4096 = 5 := by omega
    rw [(Dispatched.seReg h5).decodeWord_eq, (Dispatched.seReg hu).decodeWord_eq, hx, hy]
  · have hu : u.toNat / 4096 = 9 := by omega
    rw [(Dispatched.sneReg h9).decodeWord_eq, (Dispatched.sneReg hu).decodeWord_eq, hx, hy]

/-- Settles O5: the sums by the fields as numbers; the inverted high nibble field by field, for each is a slice of an XOR. -/
theorem decoderFieldsReassemble : Obligations.DecoderFieldsReassemble := by
  intro w
  rw [fieldsOf_op_toNat, fieldsOf_address_toNat, fieldsOf_regX_val, fieldsOf_immediate_toNat, fieldsOf_regY_val, fieldsOf_subop_toNat]
  refine ⟨by omega, by omega, by omega, ?inverted⟩
  case inverted => simp [fieldsOf, BitVec.extractLsb'_xor]

/-- Settles O6: two rows that select one word agree where their masks meet, and no two different rows of the table do. -/
theorem opcodeRowsPairwiseDisjoint : Obligations.OpcodeRowsPairwiseDisjoint :=
  fun _ r q hr hq hselr hselq => opcodeTable_no_overlap r hr q hq (selects_overlap hselr hselq)

/-- Settles O7: a decoded word has a row with its mnemonic, which is the only row that selects it; a word that decodes to nothing is
illegal, and no row selects it. -/
theorem dispatchAgreesWithOpcodeTable : Obligations.DispatchAgreesWithOpcodeTable := by
  refine fun w => ⟨fun i => exists_row_of_decodeWord, fun r hr hsel => ?selected, fun hnone => ?unselected⟩
  case unselected => exact (illegalWord_iff_decodeWord w).1 ((illegalWord_iff_no_row w).2 hnone)
  case selected =>
    cases hd : decodeWord w with
    | ok i =>
      obtain ⟨q, hq, hselq, hmnemonic⟩ := exists_row_of_decodeWord hd
      rw [opcodeRowsPairwiseDisjoint w r q hr hq hsel hselq]
      exact ⟨i, rfl, hmnemonic.symm⟩
    | error e =>
      rw [decodeWord_error hd] at hd
      have hnone := (illegalWord_iff_no_row w).1 ((illegalWord_iff_decodeWord w).2 hd)
      rw [hnone r hr] at hsel
      cases hsel

/-- Settles O8: the ranges, read as numbers, are what the 17 rows leave and what the dispatcher rejects. -/
theorem illegalWordsAreThoseOfTheTable : Obligations.IllegalWordsAreThoseOfTheTable :=
  fun w => ⟨illegalWord_iff_no_row w, illegalWord_iff_decodeWord w⟩

/-- Settles O9: the eleven words are dispatched one by one. -/
theorem sampleWordsDecode : Obligations.SampleWordsDecode := by
  unfold Obligations.SampleWordsDecode
  decide

end Sys2Proof.Proofs
end

section
/-! SUPPORT. When an instruction raises, and what a step that raises or halts leaves, said once for the statements of
40_decode_dispatch.md, 41_system.md and 60_exceptions.md. -/

namespace Sys2Proof.Laws
open Sys2Proof Sys2Proof.Machine

/-! ## The fatal conditions of the instructions (60_exceptions.md section 3) -/

/-- The instructions that raise in `s`, each with its condition and its fault. -/
inductive Raises (s : State) : Instr → Fault → Prop where
  | overflow (a : Addr12) (hfull : 16 ≤ s.stack.length) : Raises s (.call a) (.stackOverflow s.pc (encode (.call a)))
  | underflow (hempty : s.stack = []) : Raises s .ret (.stackUnderflow s.pc 0x00EE#16)
  | sprite (x y : RegIx) (n : Nibble) (hn : 1 ≤ n.toNat) (hout : 4096 ≤ s.index.toNat + n.toNat - 1) :
      Raises s (.drw x y n)
        (.outOfBoundsSprite s.pc (encode (.drw x y n)) (BitVec.ofNat 16 (max s.index.toNat 4096)))

theorem exec_of_raises {s : State} {i : Instr} {f : Fault} (h : Raises s i f) : exec i s = .fault f := by
  cases h with
  | overflow a hfull => exact exec_call_of_le a hfull
  | underflow hempty => exact exec_ret_of_nil hempty
  | sprite x y n hn hout =>
    simp only [exec, execDrw, readBytes_of_lt s.mem n.toNat s.index.toNat hn hout]
    rfl

/-- Every instruction answers a next state or raises its fatal condition. -/
theorem exec_next_or_raises (i : Instr) (s : State) : (∃ t, exec i s = .next t) ∨ ∃ f, Raises s i f := by
  cases i with
  | ret =>
    rcases List.eq_nil_or_concat s.stack with hempty | ⟨below, top, hstack⟩
    · exact .inr ⟨_, .underflow hempty⟩
    · rw [List.concat_eq_append] at hstack
      exact .inl ⟨_, exec_ret_of_append hstack⟩
  | call a =>
    by_cases hlt : s.stack.length < 16
    · exact .inl ⟨_, exec_call_of_lt a hlt⟩
    · exact .inr ⟨_, .overflow a (Nat.le_of_not_lt hlt)⟩
  | drw x y n =>
    by_cases hin : n.toNat = 0 ∨ s.index.toNat + n.toNat ≤ 4096
    · refine .inl ?_
      simp only [exec, execDrw, readBytes_of_le s.mem n.toNat s.index.toNat hin]
      exact ⟨_, rfl⟩
    · exact .inr ⟨_, .sprite x y n (by omega) (by omega)⟩
  | _ => exact .inl ⟨_, rfl⟩

theorem exec_eq_fault_iff {i : Instr} {s : State} {f : Fault} : exec i s = .fault f ↔ Raises s i f := by
  refine ⟨fun h => ?_, exec_of_raises⟩
  rcases exec_next_or_raises i s with ⟨t, ht⟩ | ⟨g, hg⟩
  · rw [ht] at h
    cases h
  · rw [exec_of_raises hg] at h
    cases h
    exact hg

/-! ## The fatal conditions of a step -/

/-- With a word at `PC`, a step raises what the dispatcher raises for the word or what its instruction raises. -/
theorem step_eq_fault_iff_of_wordAt {s : State} {w : Word} {f : Fault} (hword : s.WordAt w) :
    step s = .fault f ↔
      (IllegalWord w ∧ f = .unknownOpcode s.pc w) ∨ ∃ i, decodeWord w = .ok i ∧ Raises s i f := by
  have hfetch := fetch_eq_ok_iff_wordAt.2 hword
  cases hd : decodeWord w with
  | error e =>
    rw [step_of_decode_error hfetch hd, illegalWord_iff_decodeWord, hd, decodeWord_error hd, Host.Outcome.fault.injEq]
    simp [eq_comm]
  | ok i =>
    rw [step_of_decode_ok hfetch hd, exec_eq_fault_iff, illegalWord_iff_decodeWord, hd]
    simp

/-- The three instructions that raise, found by their words. -/
theorem raises_of_decodeWord_iff {s : State} {w : Word} {f : Fault} :
    (∃ i, decodeWord w = .ok i ∧ Raises s i f) ↔
      (w.toNat / 4096 = 2 ∧ 16 ≤ s.stack.length ∧ f = .stackOverflow s.pc w) ∨
      (w = 0x00EE#16 ∧ s.stack = [] ∧ f = .stackUnderflow s.pc w) ∨
      (w.toNat / 4096 = 13 ∧ 1 ≤ w.toNat % 16 ∧ 4096 ≤ s.index.toNat + w.toNat % 16 - 1 ∧
        f = .outOfBoundsSprite s.pc w (BitVec.ofNat 16 (max s.index.toNat 4096))) := by
  constructor
  · rintro ⟨i, hdecode, hraises⟩
    have hd := dispatched w
    rw [hdecode] at hd
    cases hraises with
    | overflow a hfull =>
      cases hd with
      | call hop => exact .inl ⟨hop, hfull, by rw [encode, encAddr_fieldsOf hop]⟩
    | underflow hempty =>
      cases hd with
      | ret hw =>
        obtain rfl : w = 0x00EE#16 := BitVec.eq_of_toNat_eq hw
        exact .inr (.inl ⟨rfl, hempty, rfl⟩)
    | sprite x y n hn hout =>
      cases hd with
      | drw hop =>
        rw [fieldsOf_subop_toNat] at hn hout
        exact .inr (.inr ⟨hop, hn, hout, by rw [encode, encRegReg_fieldsOf hop]⟩)
  · rintro (⟨hop, hfull, rfl⟩ | ⟨rfl, hempty, rfl⟩ | ⟨hop, hn, hout, rfl⟩)
    · refine ⟨_, (Dispatched.call hop).decodeWord_eq, ?_⟩
      have hraises := Raises.overflow (s := s) (fieldsOf w).address hfull
      rwa [encode, encAddr_fieldsOf hop] at hraises
    · exact ⟨.ret, rfl, .underflow hempty⟩
    · refine ⟨_, (Dispatched.drw hop).decodeWord_eq, ?_⟩
      rw [← fieldsOf_subop_toNat] at hn hout
      have hraises := Raises.sprite (s := s) (fieldsOf w).regX (fieldsOf w).regY (fieldsOf w).subop hn hout
      rwa [encode, encRegReg_fieldsOf hop] at hraises

theorem exists_wordAt {s : State} (h : s.pc.toNat < 0x0FFF) : ∃ w, s.WordAt w :=
  ⟨_, fetch_eq_ok_iff_wordAt.1 (fetch_of_lt (Nat.succ_lt_succ h))⟩

theorem wordAt_unique {s : State} {w u : Word} (hw : s.WordAt w) (hu : s.WordAt u) : w = u :=
  BitVec.eq_of_toNat_eq (hw.2.trans hu.2.symm)

theorem step_of_pc_le {s : State} (h : 0x0FFF ≤ s.pc.toNat) :
    step s = .fault (.outOfBoundsFetch s.pc (BitVec.ofNat 16 (max s.pc.toNat 0x1000))) :=
  step_of_fetch_error (fetch_of_le (Nat.succ_le_succ h))

/-! ## The host's moves around a step that changes nothing (70_reset_and_hazards.md R214, R215, R218) -/

/-- The state `s` with other bytes on the two ports the host writes. -/
def withPorts (s : State) (k : Byte) (bs : List Byte) : State :=
  { s with key := k, rndIn := bs }

/-- If every step from `s` stays there and answers `r`, whatever is on the ports, then so does a step after any moves of the host, and
they change nothing but the ports. -/
theorem foldl_move_repeats {s : State} {r : StepResult} (hrepeat : ∀ k bs, stepPort (withPorts s k bs) = (withPorts s k bs, r))
    (moves : List HostMove) :
    let s' := List.foldl State.move s moves
    (stepPort s').2 = r ∧ s' = { s with key := s'.key, rndIn := s'.rndIn } := by
  have hports : ∃ k bs, List.foldl State.move s moves = withPorts s k bs := by
    refine List.foldlRecOn (motive := fun s' => ∃ k bs, s' = withPorts s k bs) moves _ ⟨s.key, s.rndIn, rfl⟩ ?_
    rintro _ ⟨k, bs, rfl⟩ move -
    cases move with
    | step => exact ⟨k, bs, congrArg Prod.fst (hrepeat k bs)⟩
    | keyIn b => exact ⟨b, bs, rfl⟩
    | supplyRandom cs => exact ⟨k, bs ++ cs, rfl⟩
  obtain ⟨k, bs, hs'⟩ := hports
  rw [hs']
  exact ⟨congrArg Prod.snd (hrepeat k bs), rfl⟩

/-! ## The step request's answer read back -/

theorem step_next_or_fault (s : State) : (∃ t, step s = .next t) ∨ ∃ f, step s = .fault f := by
  cases hfetch : s.fetch with
  | error f => exact .inr ⟨f, step_of_fetch_error hfetch⟩
  | ok w =>
    cases hdecode : decodeWord w with
    | error e => exact .inr ⟨_, step_of_decode_error hfetch hdecode⟩
    | ok i =>
      rw [step_of_decode_ok hfetch hdecode]
      exact (exec_next_or_raises i s).imp_right fun ⟨f, hf⟩ => ⟨f, exec_of_raises hf⟩

theorem step_fault_of_stepPort_fatal {s : State} {r : FatalRecord} (h : (stepPort s).2 = .fatal r) :
    ∃ f, step s = .fault f ∧ f.record = r := by
  rcases step_next_or_fault s with ⟨t, hstep⟩ | ⟨f, hstep⟩
  · rw [stepPort_of_next hstep] at h
    split at h <;> cases h
  · rw [stepPort_of_fault hstep] at h
    exact ⟨f, hstep, StepResult.fatal.inj h⟩

/-- HALT stays where it is and answers Halted (41_system.md R90). -/
theorem stepPort_of_wordAt_zero {s : State} (h : s.WordAt 0x0000#16) : stepPort s = (s, .halted) := by
  have hstep : step s = .next s := step_of_decode_ok (fetch_eq_ok_iff_wordAt.2 h) rfl
  rw [stepPort_of_next hstep, if_pos (selected_halt_iff.2 h)]

theorem wordAt_zero_of_stepPort_halted {s : State} (h : (stepPort s).2 = .halted) : s.WordAt 0x0000#16 := by
  rcases step_next_or_fault s with ⟨t, hstep⟩ | ⟨f, hstep⟩
  · rw [stepPort_of_next hstep] at h
    by_contra hword
    rw [if_neg (mt selected_halt_iff.1 hword)] at h
    cases h
  · rw [stepPort_of_fault hstep] at h
    cases h

end Sys2Proof.Laws
end

section
/-! PROOFS. The statements about a step, its fatal conditions and its ends. -/

namespace Sys2Proof.Proofs
open Sys2Proof Sys2Proof.Machine Sys2Proof.Laws

/-- Settles O14: from 0x0FFF up the fetch raises; below there is a word at `PC`, and the dispatcher or its instruction raises. -/
theorem stepRaisesExactlyTheFatalConditions : Obligations.StepRaisesExactlyTheFatalConditions := by
  intro s f
  by_cases hpc : 0x0FFF ≤ s.pc.toNat
  · rw [step_of_pc_le hpc, Host.Outcome.fault.injEq]
    constructor
    · exact fun h => .inl ⟨hpc, h.symm⟩
    · rintro (⟨-, hf⟩ | ⟨w, ⟨hin, -⟩, -⟩)
      · exact hf.symm
      · omega
  · obtain ⟨w, hword⟩ := exists_wordAt (Nat.lt_of_not_le hpc)
    rw [step_eq_fault_iff_of_wordAt hword, raises_of_decodeWord_iff]
    constructor
    · exact fun h => .inr ⟨w, hword, h⟩
    · rintro (⟨hle, -⟩ | ⟨u, hu, h⟩)
      · exact absurd hle hpc
      · rwa [wordAt_unique hword hu]

/-- Settles O10: the word at `PC` is the fetched one. -/
theorem stepRunsTheDecodedInstr : Obligations.StepRunsTheDecodedInstr :=
  fun _ _ _ hword hdecode => step_of_decode_ok (fetch_eq_ok_iff_wordAt.2 hword) hdecode

/-- Settles O11: from 0x0FFF up by the larger of `PC` and 0x1000, below because the other fatal conditions are none of the fetch. -/
theorem fetchOutOfBounds : Obligations.FetchOutOfBounds := by
  refine fun s => ⟨fun hpc => ?last, fun hpc => ?above, fun hpc p a h => ?below⟩
  case last => rw [step_of_pc_le hpc.ge, hpc]; rfl
  case above => rw [step_of_pc_le (by omega), max_eq_left hpc, BitVec.ofNat_toNat, BitVec.setWidth_eq]
  case below =>
    rcases (stepRaisesExactlyTheFatalConditions s _).1 h with
      ⟨hle, -⟩ | ⟨w, -, ⟨-, hf⟩ | ⟨-, -, hf⟩ | ⟨-, -, hf⟩ | ⟨-, -, -, hf⟩⟩
    · omega
    all_goals cases hf

/-- Settles O12: an illegal word is one of the fatal conditions, and no other one raises UnknownOpcode. -/
theorem unknownOpcodeForExactlyTheIllegalWords : Obligations.UnknownOpcodeForExactlyTheIllegalWords := by
  intro s w hword
  rw [step_eq_fault_iff_of_wordAt hword]
  constructor
  · exact fun h => .inl ⟨h, rfl⟩
  · rintro (⟨h, -⟩ | ⟨i, -, hraises⟩)
    · exact h
    · cases hraises

/-- Settles O13: the fetch and the dispatcher raise or hand on an instruction, which answers a next state or raises. -/
theorem stepNeverRefuses : Obligations.StepNeverRefuses :=
  step_next_or_fault

/-- Settles O15, one fatal condition after the other. -/
theorem fatalRecordsCarryTheirCodes : Obligations.FatalRecordsCarryTheirCodes :=
  fun _ _ _ => ⟨rfl, rfl, rfl, rfl, rfl⟩

/-- Settles O17: the fatal conditions read neither port, so the same one comes again whatever the ports hold, and it leaves the state
as it was. -/
theorem fatalStepWritesNothingAndRepeats : Obligations.FatalStepWritesNothingAndRepeats := by
  intro s r hfatal
  obtain ⟨f, hstep, rfl⟩ := step_fault_of_stepPort_fatal hfatal
  have hrepeat : ∀ k bs, stepPort (withPorts s k bs) = (withPorts s k bs, .fatal f.record) := fun k bs =>
    stepPort_of_fault ((stepRaisesExactlyTheFatalConditions (withPorts s k bs) f).2
      ((stepRaisesExactlyTheFatalConditions s f).1 hstep))
  exact ⟨stepPort_fst_of_fatal hfatal, foldl_move_repeats hrepeat⟩

/-- Settles O18: HALT is at `PC` whatever the ports hold, and it leaves the state as it was. -/
theorem haltedStepRepeats : Obligations.HaltedStepRepeats := by
  intro s hhalted
  have hword := wordAt_zero_of_stepPort_halted hhalted
  exact foldl_move_repeats fun k bs => stepPort_of_wordAt_zero (s := withPorts s k bs) hword

/-- Settles O19: the word by dispatch, the outcome because HALT is what 0x0000 selects. -/
theorem haltChangesNothing : Obligations.HaltChangesNothing :=
  ⟨fun _ => decodeWord_eq_halt_iff, fun _ => ⟨rfl, stepPort_of_wordAt_zero⟩⟩

end Sys2Proof.Proofs
end

section
/-! SUPPORT. Which pieces of the state each instruction writes, and what that leaves of the ranges and of memory, said once for the
statements of 10_state.md and 20_memory.md. -/

namespace Sys2Proof.Laws
open Sys2Proof Sys2Proof.Machine

/-! ## What each instruction writes (10_state.md section 2, 40_decode_dispatch.md R78) -/

/-- `s` with the pieces that the instruction may write taken from `t`. -/
def written (i : Instr) (s t : State) : State :=
  match i with
  | .halt | .jp _ | .jpV0 _ | .seImm _ _ | .sneImm _ _ | .seReg _ _ | .sneReg _ _ | .skp _ | .sknp _ => { s with pc := t.pc }
  | .cls => { s with disp := t.disp, pc := t.pc }
  | .ret | .call _ => { s with stack := t.stack, pc := t.pc }
  | .ldImm x _ | .addImm x _ => { s.setReg x (t.reg x) with pc := t.pc }
  | .ldI _ => { s with index := t.index, pc := t.pc }
  | .rnd x _ => { s.setReg x (t.reg x) with rndIn := t.rndIn, draws := t.draws, pc := t.pc }
  | .drw _ _ _ => { s.setReg vf (t.reg vf) with disp := t.disp, pc := t.pc }

/-- An instruction that raises nothing writes those pieces alone. -/
theorem exec_eq_written {i : Instr} {s t : State} (h : exec i s = .next t) : t = written i s t := by
  cases i with
  | halt | cls | jp | jpV0 | ldI => cases h; rfl
  | seImm | sneImm | seReg | sneReg | skp | sknp =>
    obtain rfl := Host.Outcome.next.inj ((skipIf_eq_next Iff.rfl s).symm.trans h)
    rfl
  | ret =>
    obtain ⟨v, u, hpop, rfl⟩ := exec_ret_eq_next h
    rw [(pop_eq_some hpop).2]
    rfl
  | call a =>
    obtain ⟨u, hpush, rfl⟩ := exec_call_eq_next h
    rw [(push_eq_some hpush).2]
    rfl
  | ldImm | addImm =>
    cases h
    rw [written, reg_advance, reg_setReg_self]
    rfl
  | rnd x k =>
    rw [exec_rnd] at h
    cases h
    rw [written, reg_advance, reg_setReg_self, drawByte_snd]
    rfl
  | drw x y n =>
    obtain ⟨sprite, drawn, -, -, rfl⟩ := exec_drw_eq_next h
    rw [written, reg_advance, reg_setReg_self]
    rfl

theorem written_mem (i : Instr) (s t : State) : (written i s t).mem = s.mem := by
  cases i <;> rfl

theorem written_key (i : Instr) (s t : State) : (written i s t).key = s.key := by
  cases i <;> rfl

theorem written_index {i : Instr} (s t : State) (hi : ∀ a, i ≠ .ldI a) : (written i s t).index = s.index := by
  cases i with
  | ldI a => exact absurd rfl (hi a)
  | _ => rfl

theorem written_disp {i : Instr} (s t : State) (hcls : i ≠ .cls) (hdrw : ∀ x y n, i ≠ .drw x y n) :
    (written i s t).disp = s.disp := by
  cases i with
  | cls => exact absurd rfl hcls
  | drw x y n => exact absurd rfl (hdrw x y n)
  | _ => rfl

theorem written_rndIn_draws {i : Instr} (s t : State) (hi : ∀ x k, i ≠ .rnd x k) :
    (written i s t).rndIn = s.rndIn ∧ (written i s t).draws = s.draws := by
  cases i with
  | rnd x k => exact absurd rfl (hi x k)
  | _ => exact ⟨rfl, rfl⟩

theorem written_reg {i : Instr} {r : RegIx} (s t : State) (hreg : ∀ k, i ≠ .ldImm r k ∧ i ≠ .addImm r k ∧ i ≠ .rnd r k)
    (hvf : r = vf → ∀ x y n, i ≠ .drw x y n) : (written i s t).reg r = s.reg r := by
  cases i with
  | ldImm x k => exact reg_setReg_of_ne s x r _ fun e => (hreg k).1 (e ▸ rfl)
  | addImm x k => exact reg_setReg_of_ne s x r _ fun e => (hreg k).2.1 (e ▸ rfl)
  | rnd x k => exact reg_setReg_of_ne s x r _ fun e => (hreg k).2.2 (e ▸ rfl)
  | drw x y n => exact reg_setReg_of_ne s vf r _ fun e => hvf e x y n rfl
  | _ => rfl

theorem exec_mem {i : Instr} {s t : State} (h : exec i s = .next t) : t.mem = s.mem :=
  (congrArg State.mem (exec_eq_written h)).trans (written_mem i s t)

theorem exec_index_of_ne {i : Instr} {s t : State} (h : exec i s = .next t) (hi : ∀ a, i ≠ .ldI a) : t.index = s.index :=
  (congrArg State.index (exec_eq_written h)).trans (written_index s t hi)

/-! ## The ranges of 10_state.md section 16 -/

theorem exec_index_le {i : Instr} {s t : State} (h : exec i s = .next t) (hs : s.index.toNat ≤ 0x0FFF) : t.index.toNat ≤ 0x0FFF := by
  by_cases hi : ∃ a, i = .ldI a
  · obtain ⟨a, rfl⟩ := hi
    cases h
    rw [advance_index, setIndex_index, zextAddr_toNat]
    omega
  · rwa [exec_index_of_ne h (not_exists.1 hi)]

/-- CALL pushes the `PC` it was fetched at; RET leaves entries that were there before. -/
theorem exec_entry_le {i : Instr} {s t : State} (h : exec i s = .next t) (hpc : s.pc.toNat ≤ 0x0FFE)
    (hs : ∀ e ∈ s.stack, e.toNat ≤ 0x0FFE) : ∀ e ∈ t.stack, e.toNat ≤ 0x0FFE := by
  by_cases hcall : ∃ a, i = .call a
  · obtain ⟨a, rfl⟩ := hcall
    rw [(exec_call_stack h).2]
    exact List.forall_mem_append.2 ⟨hs, List.forall_mem_singleton.2 hpc⟩
  by_cases hret : i = .ret
  · subst hret
    obtain ⟨v, hv⟩ := exec_ret_stack h
    rw [hv] at hs
    exact (List.forall_mem_append.1 hs).1
  rwa [exec_stack_of_ne (not_exists.1 hcall) hret h]

/-- The largest next `PC` is JP_V0's 0x0FFF + 0xFF; RET goes 2 past an entry, a skip at most 4 past the fetch. -/
theorem exec_pc_le {i : Instr} {s t : State} (h : exec i s = .next t) (hpc : s.pc.toNat ≤ 0x0FFE)
    (hs : ∀ e ∈ s.stack, e.toNat ≤ 0x0FFE) : t.pc.toNat ≤ 0x10FE := by
  have hnext := Proofs.pcUpdateOfEveryInstr i s t h
  cases i with
  | halt =>
    rw [hnext]
    omega
  | cls =>
    rw [hnext, BitVec.toNat_add, BitVec.toNat_ofNat]
    omega
  | ret =>
    obtain ⟨v, hv, hnext⟩ := hnext
    have := hs v (List.mem_of_getLast? hv)
    omega
  | jp a | call a | jpV0 a =>
    dsimp only at hnext
    omega
  | ldImm | addImm | ldI | rnd | drw =>
    dsimp only at hnext
    omega
  | seImm | sneImm | seReg | sneReg | skp | sknp =>
    dsimp only at hnext
    split at hnext <;> omega

/-! ## Well-formed states -/

theorem wf_iff {s : State} : s.wf = true ↔ s.stack.length ≤ 16 ∧ s.mem.wf = true := by
  rw [State.wf, Bool.and_eq_true, decide_eq_true_iff, Config.stackDepth]

end Sys2Proof.Laws
end

section
/-! PROOFS. The statements about what an instruction writes and what every step keeps. -/

namespace Sys2Proof.Proofs
open Sys2Proof Sys2Proof.Machine Sys2Proof.Laws

/-- Settles O49: the step fetched a word, so `PC` was at most 0x0FFE, and the instruction it ran keeps each range. -/
theorem stepKeepsTheReachableRanges : Obligations.StepKeepsTheReachableRanges := by
  intro s t hs hstep
  obtain ⟨w, i, -, hpc, -, hexec⟩ := step_eq_next hstep
  have hpc : s.pc.toNat ≤ 0x0FFE := Nat.le_of_lt_succ (Nat.lt_of_succ_lt_succ hpc)
  exact {
    index_le := exec_index_le hexec hs.index_le
    pc_le := exec_pc_le hexec hpc hs.entry_le
    entry_le := exec_entry_le hexec hpc hs.entry_le
    depth_le := exec_stack_length_le hexec hs.depth_le }

/-- Settles O39: the four instructions that write a register write no other one. -/
theorem onlyNamedRegistersAreWritten : Obligations.OnlyNamedRegistersAreWritten := fun _ s t r h hreg hvf =>
  (congrArg (fun u => u.reg r) (exec_eq_written h)).trans (written_reg s t hreg hvf)

/-- Settles O40: each piece is compared with the one of the written state. -/
theorem onlyNamedStateIsWritten : Obligations.OnlyNamedStateIsWritten := by
  intro i s t h
  have hw := exec_eq_written h
  refine ⟨fun a => by rw [exec_mem h], exec_mem h, ?key, exec_index_of_ne h, fun hcall hret => exec_stack_of_ne hcall hret h,
    fun hcls hdrw row col => ?pixel, fun hrnd => ?port⟩
  case key => rw [hw, written_key]
  case pixel => rw [State.pixel, State.pixel, hw, written_disp s t hcls hdrw]
  case port =>
    rw [hw]
    exact written_rndIn_draws s t hrnd

/-- Settles O51: no instruction takes the stack past 16 entries, and none writes memory. -/
theorem stepKeepsTheStateWellFormed : Obligations.StepKeepsTheStateWellFormed := by
  intro s t hs hstep
  obtain ⟨w, i, -, -, -, hexec⟩ := step_eq_next hstep
  obtain ⟨hdepth, hmem⟩ := wf_iff.1 hs
  rw [wf_iff, exec_mem hexec]
  exact ⟨exec_stack_length_le hexec hdepth, hmem⟩

end Sys2Proof.Proofs
end

section
/-! SUPPORT. What an instruction cannot observe: the display, the key latch and memory may be exchanged for others, and all but the
instructions that read them do the same (40_decode_dispatch.md section 2, 10_state.md section 7, 20_memory.md section 4). -/

namespace Sys2Proof.Laws
open Sys2Proof Sys2Proof.Machine

/-- The same answer with the next state changed by `g`. -/
def mapNext (g : State → State) : Result → Result
  | .next t => .next (g t)
  | .fault f => .fault f
  | .refused r => .refused r

/-- `s` with the display, the key latch and memory exchanged by `δ`, `κ` and `μ`. -/
def exchange (δ : Display → Display) (κ : Byte → Byte) (μ : Memory → Memory) (s : State) : State :=
  { s with disp := δ s.disp, key := κ s.key, mem := μ s.mem }

variable (δ : Display → Display) (κ : Byte → Byte) (μ : Memory → Memory)

/-- The skip mechanism reads `PC` alone. -/
theorem skipIf_exchange (cond : Bool) (s : State) :
    skipIf cond (exchange δ κ μ s) = mapNext (exchange δ κ μ) (skipIf cond s) := by
  cases cond <;> rfl

/-- Only CLS and DRW can tell two displays apart, only SKP and SKNP two key latches, and only DRW two memories. -/
theorem exec_exchange {i : Instr} (hdisp : (i ≠ .cls ∧ ∀ x y n, i ≠ .drw x y n) ∨ δ = id)
    (hkey : (∀ x, i ≠ .skp x ∧ i ≠ .sknp x) ∨ κ = id) (hmem : (∀ x y n, i ≠ .drw x y n) ∨ μ = id) (s : State) :
    exec i (exchange δ κ μ s) = mapNext (exchange δ κ μ) (exec i s) := by
  cases i with
  | halt | jp | ldImm | addImm | ldI | jpV0 => rfl
  | seImm | sneImm | seReg | sneReg => exact skipIf_exchange δ κ μ _ s
  | skp x | sknp x =>
    obtain rfl : κ = id := hkey.resolve_left fun h => by simpa using h x
    exact skipIf_exchange δ id μ _ s
  | cls =>
    obtain rfl : δ = id := hdisp.resolve_left fun h => h.1 rfl
    rfl
  | drw x y n =>
    obtain rfl : δ = id := hdisp.resolve_left fun h => h.2 x y n rfl
    obtain rfl : μ = id := hmem.resolve_left fun h => h x y n rfl
    simp only [exec, execDrw, exchange, id]
    cases s.mem.readBytes s.index.toNat n.toNat <;> rfl
  | ret =>
    rcases List.eq_nil_or_concat s.stack with hempty | ⟨below, top, hstack⟩
    · rw [exec_ret_of_nil hempty, exec_ret_of_nil (s := exchange δ κ μ s) hempty]
      rfl
    · rw [List.concat_eq_append] at hstack
      rw [exec_ret_of_append hstack, exec_ret_of_append (s := exchange δ κ μ s) hstack]
      rfl
  | call a =>
    by_cases hlt : s.stack.length < 16
    · rw [exec_call_of_lt a hlt, exec_call_of_lt (s := exchange δ κ μ s) a hlt]
      rfl
    · rw [exec_call_of_le a (Nat.le_of_not_lt hlt), exec_call_of_le (s := exchange δ κ μ s) a (Nat.le_of_not_lt hlt)]
      rfl
  | rnd x k =>
    rw [exec_rnd, exec_rnd]
    cases hport : s.rndIn with
    | nil =>
      rw [drawByte_nil hport, drawByte_nil (s := exchange δ κ μ s) hport]
      rfl
    | cons b rest =>
      rw [drawByte_cons hport, drawByte_cons (s := exchange δ κ μ s) hport]
      rfl

/-- An answer changed by `g`, read as two implications. -/
theorem of_eq_mapNext {g : State → State} {p q : Result} (h : q = mapNext g p) :
    (∀ t, p = .next t → q = .next (g t)) ∧ (∀ f, p = .fault f → q = .fault f) := by
  constructor <;> rintro _ rfl <;> exact h

end Sys2Proof.Laws
end

section
/-! PROOFS. The statements about what an instruction does not depend on. -/

namespace Sys2Proof.Proofs
open Sys2Proof Sys2Proof.Machine Sys2Proof.Laws

/-- Settles O43: the key latch alone is exchanged. -/
theorem onlyKeySkipsDependOnTheKey : Obligations.OnlyKeySkipsDependOnTheKey := fun _ s b hi =>
  of_eq_mapNext (exec_exchange id (fun _ => b) id (.inr rfl) (.inl hi) (.inr rfl) s)

/-- Settles O44: the display alone is exchanged; CLS overwrites it and raises nothing. -/
theorem onlyDrwReadsTheDisplay : Obligations.OnlyDrwReadsTheDisplay := by
  intro i s d hdrw
  by_cases hcls : i = .cls
  · subst hcls
    exact ⟨fun h => absurd rfl h, fun _ => rfl, nofun⟩
  · obtain ⟨hnext, hfault⟩ :=
      of_eq_mapNext (exec_exchange (fun _ => d) id id (.inl ⟨hcls, hdrw⟩) (.inr rfl) (.inr rfl) s)
    exact ⟨fun _ => hnext, fun h => absurd h hcls, hfault⟩

/-- Settles O45: with the two fetched bytes the same, the same instruction is run, and memory alone is exchanged. -/
theorem onlyDrwReadsMemoryBeyondTheFetch : Obligations.OnlyDrwReadsMemoryBeyondTheFetch := by
  intro s m w hword hop hhi hlo
  have hword' : ({ s with mem := m } : State).WordAt w := by
    rw [State.WordAt] at hword ⊢
    rwa [hhi, hlo]
  have hfetch := fetch_eq_ok_iff_wordAt.2 hword
  have hfetch' := fetch_eq_ok_iff_wordAt.2 hword'
  cases hd : decodeWord w with
  | error e =>
    rw [step_of_decode_error hfetch hd, step_of_decode_error hfetch' hd]
    exact ⟨nofun, fun f h => h⟩
  | ok i =>
    have hdrw : ∀ x y n, i ≠ .drw x y n := by
      rintro x y n rfl
      have := dispatched w
      rw [hd] at this
      cases this with
      | drw h => exact hop h
    rw [step_of_decode_ok hfetch hd, step_of_decode_ok hfetch' hd]
    exact of_eq_mapNext (exec_exchange id id (fun _ => m) (.inr rfl) (.inr rfl) (.inl hdrw) s)

end Sys2Proof.Proofs
end

section
/-! SUPPORT. JP_V0, CALLs one after the other, and the random draw, said once for the statements of 43_control_flow.md and
45_register_ops.md. -/

namespace Sys2Proof.Laws
open Sys2Proof Sys2Proof.Machine

theorem exec_jpV0 (a : Addr12) (s : State) : exec (.jpV0 a) s = .next (s.jump (zextAddr a + zextByte (s.reg 0))) :=
  rfl

theorem execList_cons_of_next {i : Instr} {is : List Instr} {s t : State} (h : exec i s = .next t) :
    execList (i :: is) s = execList is t := by
  rw [execList, h]

/-- As many CALLs as there is room for succeed, and each adds an entry. -/
theorem execList_calls : ∀ (targets : List Addr12) (s : State), s.stack.length + targets.length ≤ 16 →
    ∃ t, execList (targets.map Instr.call) s = .next t ∧ t.stack.length = s.stack.length + targets.length
  | [], s, _ => ⟨s, rfl, rfl⟩
  | a :: targets, s, hroom => by
    rw [List.length_cons] at hroom
    have hcall := exec_call_of_lt (s := s) a (by omega)
    rw [List.map_cons, execList_cons_of_next hcall, List.length_cons]
    obtain ⟨t, ht, hlength⟩ := execList_calls targets { s with stack := s.stack ++ [s.pc], pc := zextAddr a }
      (by rw [List.length_append, List.length_singleton]; omega)
    refine ⟨t, ht, ?_⟩
    rw [hlength, List.length_append, List.length_singleton]
    omega

/-- The bits outside a mask are gone. -/
theorem and_and_not_self (b k : Byte) : (b &&& k) &&& ~~~k = 0#8 := by
  rw [BitVec.and_assoc, BitVec.and_not_self]
  exact BitVec.and_zero

/-- RND leaves the masked byte in its register, the port as the draw left it, and everything else but `PC`. -/
theorem exec_rnd_eq_next (x : RegIx) (k : Byte) (s : State) : ∃ t, exec (.rnd x k) s = .next t ∧
    t.reg x = s.drawByte.1 &&& k ∧ (∀ r, r ≠ x → t.reg r = s.reg r) ∧ t.rndIn = s.rndIn.tail ∧ t.draws = s.draws + 1 ∧
    t = { s with v := t.v, pc := s.pc + 2#16, rndIn := t.rndIn, draws := t.draws } := by
  refine ⟨_, exec_rnd x k s, ?_⟩
  rw [drawByte_snd]
  exact ⟨reg_setReg_self .., fun r hr => reg_setReg_of_ne _ x r _ hr, rfl, rfl, rfl⟩

end Sys2Proof.Laws
end

section
/-! PROOFS. The statements about JP_V0, nested CALLs and RND. -/

namespace Sys2Proof.Proofs
open Sys2Proof Sys2Proof.Machine Sys2Proof.Laws

/-- Settles O28: the word by its high nibble, `PC` by the sum that does not wrap. -/
theorem jpV0SetsThePcToTheExactSum : Obligations.JpV0SetsThePcToTheExactSum :=
  ⟨fun w hop => ⟨_, (Dispatched.jpV0 hop).decodeWord_eq, fieldsOf_address_toNat w⟩,
    fun a s => ⟨_, exec_jpV0 a s, zextAddr_add_zextByte_toNat a (s.reg 0), rfl⟩⟩

/-- Settles O29: the CALL pushed its own address, and the RET pops that entry and goes 2 past it. -/
theorem returnGoesPastTheCall : Obligations.ReturnGoesPastTheCall := by
  intro a s t u hcall hstack
  rw [(exec_call_stack hcall).2] at hstack
  exact ⟨_, exec_ret_of_append hstack, rfl, rfl⟩

/-- Settles O30: sixteen CALLs fill the empty stack, and a CALL on a full one overflows. -/
theorem seventeenthNestedCallOverflows : Obligations.SeventeenthNestedCallOverflows := by
  intro targets s hempty hlength
  obtain ⟨t, hrun, hfull⟩ := execList_calls targets s (by rw [hempty, hlength]; decide)
  rw [hempty, hlength, List.length_nil, Nat.zero_add] at hfull
  exact ⟨t, hrun, hfull, fun a => by rw [exec_call_of_le a hfull.ge, encode_call_eq_ofNat]⟩

/-- Settles O37: the word by its high nibble, the byte by what the port holds, the rest by the frame of the draw and the write. -/
theorem rndStoresTheMaskedDraw : Obligations.RndStoresTheMaskedDraw := by
  refine ⟨fun w hop => ⟨_, _, (Dispatched.rnd hop).decodeWord_eq, fieldsOf_regX_val w, fieldsOf_immediate_toNat w⟩, fun x k s => ?_⟩
  obtain ⟨t, hexec, hx, hother, hport, hdraws, hframe⟩ := exec_rnd_eq_next x k s
  refine ⟨t, hexec, fun b rest hcons => ?supplied, fun hnil => ?free, ?masked, hdraws, hother, hframe⟩
  case supplied => rw [hx, hport, drawByte_cons hcons, hcons]; exact ⟨rfl, rfl⟩
  case free => rw [hx, hport, drawByte_nil hnil, hnil]; exact ⟨rfl, rfl⟩
  case masked => rw [hx, and_and_not_self]

/-- Settles O38: the supplied byte is the whole port, so it is the one drawn. -/
theorem everyByteCanBeDrawn : Obligations.EveryByteCanBeDrawn := by
  intro x k b s hnil
  have hport : (s.supplyRandom [b]).rndIn = [b] := by rw [supplyRandom_rndIn, hnil, List.nil_append]
  obtain ⟨t, hexec, hsupplied, -⟩ := rndStoresTheMaskedDraw.2 x k (s.supplyRandom [b])
  obtain ⟨hx, hrest⟩ := hsupplied b [] hport
  exact ⟨t, hexec, hx, hrest⟩

end Sys2Proof.Proofs
end

section
/-! SUPPORT. What a DRW whose sprite bytes lie in memory answers, said once for the statements of 42_display.md. -/

namespace Sys2Proof.Laws
open Sys2Proof Sys2Proof.Machine

/-- The sprite bit that a DRW of `s` lets fall on a pixel. -/
def drwBit (x y : RegIx) (n : Nibble) (s : State) (row : Fin 32) (col : Fin 64) : Bool :=
  spriteBit s.mem s.index.toNat (s.reg x).toNat (s.reg y).toNat n.toNat row.val col.val

/-- The bits of the sprite read from memory are the sprite bits. -/
theorem spriteRowsBit_map_byteAt (m : Memory) (base x y height : Nat) (row : Fin 32) (col : Fin 64) :
    spriteRowsBit ((List.range height).map fun r => m.byteAt (base + r)) x y row col = spriteBit m base x y height row.val col.val := by
  rw [spriteRowsBit, spriteBit, List.length_map, List.length_range]
  by_cases h : y ≤ row.val ∧ row.val < y + height ∧ x ≤ col.val ∧ col.val < x + 8
  · have hrow : row.val - y < height := by omega
    rw [List.getElem?_map, List.getElem?_range hrow]
    rfl
  · rw [decide_eq_false h, Bool.false_and, Bool.false_and]

theorem flagByte_eq_one_iff {hit : Bool} : flagByte hit = 1#8 ↔ hit = true := by
  cases hit <;> decide

theorem disp_eq_of_pixel_eq {s t : State} (h : ∀ row col, t.pixel row col = s.pixel row col) : t.disp = s.disp :=
  Vector.ext fun row hrow => Vector.ext fun col hcol => h ⟨row, hrow⟩ ⟨col, hcol⟩

/-- DRW in bounds: each pixel is XORed with its sprite bit, VF tells whether a lit pixel met a set bit, and nothing else changes but
`PC` (42_display.md R102 to R106). -/
theorem exec_drw_of_le {x y : RegIx} {n : Nibble} {s : State} (hin : n.toNat = 0 ∨ s.index.toNat + n.toNat ≤ 4096) :
    ∃ t hit, exec (.drw x y n) s = .next t ∧
      (∀ row col, t.pixel row col = (s.pixel row col ^^ drwBit x y n s row col)) ∧
      t.reg 15 = flagByte hit ∧ (hit = true ↔ ∃ row col, s.pixel row col = true ∧ drwBit x y n s row col = true) ∧
      (∀ r, r ≠ 15 → t.reg r = s.reg r) ∧ t = { s with disp := t.disp, v := t.v, pc := s.pc + 2#16 } := by
  have hread := readBytes_of_le s.mem n.toNat s.index.toNat hin
  obtain ⟨hpixel, hhit⟩ := draws_drawSprite (s.reg x).toNat ((List.range n.toNat).map fun r => s.mem.byteAt (s.index.toNat + r))
    (s.reg y).toNat (s.disp, false)
  simp only [spriteRowsBit_map_byteAt, Bool.false_eq_true, false_or] at hpixel hhit
  simp only [exec, execDrw, hread]
  exact ⟨_, _, rfl, hpixel, reg_setReg_self .., hhit, fun r hr => reg_setReg_of_ne _ vf r _ hr, rfl⟩

/-- A DRW that answers a next state read its sprite inside memory. -/
theorem le_of_exec_drw {x y : RegIx} {n : Nibble} {s t : State} (h : exec (.drw x y n) s = .next t) :
    n.toNat = 0 ∨ s.index.toNat + n.toNat ≤ 4096 := by
  by_contra hout
  rw [exec_of_raises (.sprite x y n (by omega) (by omega))] at h
  cases h

/-- The DRW word in numbers. -/
theorem encode_drw_eq_ofNat (x y : RegIx) (n : Nibble) :
    encode (.drw x y n) = BitVec.ofNat 16 (0xD000 + x.val * 256 + y.val * 16 + n.toNat) := by
  have hn := n.isLt
  apply BitVec.eq_of_toNat_eq
  rw [encode, encRegReg_toNat, BitVec.toNat_ofNat, BitVec.toNat_ofNat]
  omega

/-- No sprite bit falls on the buffer from an origin off it. -/
theorem drwBit_eq_false_of_off {x y : RegIx} {n : Nibble} {s : State} (hoff : 64 ≤ (s.reg x).toNat ∨ 32 ≤ (s.reg y).toNat)
    (row : Fin 32) (col : Fin 64) : drwBit x y n s row col = false := by
  rw [drwBit, spriteBit, decide_eq_false (by omega), Bool.false_and]

end Sys2Proof.Laws
end

section
/-! PROOFS. The statements about DRW. -/

namespace Sys2Proof.Proofs
open Sys2Proof Sys2Proof.Machine Sys2Proof.Laws

/-- Settles O21: the two clauses about VF are the collision and its absence. -/
theorem drwXorsTheSpriteAndFlagsCollision : Obligations.DrwXorsTheSpriteAndFlagsCollision := by
  intro x y n s hin
  obtain ⟨t, hit, hexec, hpixel, hvf, hhit, hother, hframe⟩ := exec_drw_of_le (x := x) (y := y) hin
  refine ⟨t, hexec, hpixel, fun hmeet => ?collision, fun hnone => ?noCollision, hother, hframe⟩
  case collision => rw [hvf, hhit.2 hmeet]; rfl
  case noCollision =>
    have hno : hit = false := by
      rw [← Bool.not_eq_true, hhit]
      rintro ⟨row, col, hlit, hbit⟩
      rcases hnone row col with h | h
      · exact Bool.false_ne_true (h.symm.trans hlit)
      · exact Bool.false_ne_true (h.symm.trans hbit)
    rw [hvf, hno]
    rfl

/-- Settles O22: the word by its high nibble, the fault as DRW's fatal condition with the DRW word in numbers. -/
theorem drwChecksEverySpriteByte : Obligations.DrwChecksEverySpriteByte := by
  refine ⟨fun w hop => ⟨_, _, _, (Dispatched.drw hop).decodeWord_eq, fieldsOf_regX_val w, fieldsOf_regY_val w, fieldsOf_subop_toNat w⟩,
    fun x y n s hn hout => ?fault⟩
  case fault => rw [exec_of_raises (.sprite x y n hn hout), encode_drw_eq_ofNat]

/-- Settles O23: with every sprite bit false each pixel keeps its value, and nothing collides. -/
theorem drwOffTheBufferDrawsNothing : Obligations.DrwOffTheBufferDrawsNothing := by
  intro x y n s hin hoff
  have hbit := drwBit_eq_false_of_off (n := n) hoff
  obtain ⟨t, hexec, hpixel, -, hvf, -⟩ := drwXorsTheSpriteAndFlagsCollision x y n s hin
  refine ⟨t, hexec, disp_eq_of_pixel_eq fun row col => ?pixel, hvf fun row col => .inr (hbit row col)⟩
  case pixel => exact (hpixel row col).trans ((congrArg _ (hbit row col)).trans (Bool.xor_false _))

/-- Settles O24: the first draw keeps what the sprite bits are read from, so the second XORs the same bits, and it meets a lit pixel
exactly where the first turned one on. -/
theorem drawingTwiceRestoresTheDisplay : Obligations.DrawingTwiceRestoresTheDisplay := by
  intro x y n s t hx hy hfirst
  have hin := le_of_exec_drw hfirst
  obtain ⟨t', -, hexec, hpixel, -, -, hother, -⟩ := exec_drw_of_le (x := x) (y := y) hin
  obtain rfl : t' = t := Host.Outcome.next.inj (hexec.symm.trans hfirst)
  have hindex : t'.index = s.index := exec_index_of_ne hfirst nofun
  have hbit : drwBit x y n t' = drwBit x y n s := by
    funext row col
    rw [drwBit, drwBit, hother x hx, hother y hy, hindex, exec_mem hfirst]
  obtain ⟨u, hit, hsecond, hpixel', hvf, hhit, -⟩ := exec_drw_of_le (x := x) (y := y) (s := t') (hindex ▸ hin)
  rw [hbit] at hpixel' hhit
  refine ⟨u, hsecond, disp_eq_of_pixel_eq fun row col => ?restored, ?collision⟩
  case restored => rw [hpixel', hpixel, Bool.xor_assoc, Bool.xor_self, Bool.xor_false]
  case collision =>
    rw [hvf, flagByte_eq_one_iff, hhit]
    refine exists_congr fun row => exists_congr fun col => ?_
    rw [hpixel]
    cases s.pixel row col <;> cases drwBit x y n s row col <;> decide

end Sys2Proof.Proofs
end

section
/-! SUPPORT. Construction, what the host's moves keep, and the placed word, said once for the statements of 70_reset_and_hazards.md. -/

namespace Sys2Proof.Laws
open Sys2Proof Sys2Proof.Machine

/-! ## Construction (70_reset_and_hazards.md R210 to R212) -/

theorem construct_of_le {image : List Byte} (h : image.length ≤ 3584) :
    construct image = .ok { State.reset with mem := Memory.load [] Config.loadBase image } :=
  if_pos (decide_eq_true h)

theorem construct_of_lt {image : List Byte} (h : 3584 < image.length) : construct image = .error (.imageTooLong image.length) :=
  if_neg (mt of_decide_eq_true (Nat.not_le.2 h))

theorem construct_eq_ok {image : List Byte} {s : State} (h : construct image = .ok s) :
    image.length ≤ 3584 ∧ s = { State.reset with mem := Memory.load [] Config.loadBase image } := by
  by_cases hle : image.length ≤ 3584
  · rw [construct_of_le hle] at h
    exact ⟨hle, (Except.ok.inj h).symm⟩
  · rw [construct_of_lt (Nat.lt_of_not_le hle)] at h
    cases h

/-- An image of the greatest length still ends inside memory. -/
theorem loadBase_add_le {image : List Byte} (h : image.length ≤ 3584) : Config.loadBase + image.length ≤ Config.memSize :=
  Nat.add_le_add_left h Config.loadBase

theorem construct_wf {image : List Byte} {s : State} (h : construct image = .ok s) : s.wf = true := by
  obtain ⟨hle, rfl⟩ := construct_eq_ok h
  exact wf_iff.2 ⟨Nat.zero_le 16, wf_load image Config.loadBase [] (loadBase_add_le hle) rfl⟩

/-- The ranges say nothing of memory, so every constructed state is in range as the state after reset is. -/
theorem inRange_reset_with_mem (m : Memory) : ({ State.reset with mem := m } : State).InRange where
  index_le := Nat.zero_le _
  pc_le := (by decide : State.reset.pc.toNat ≤ 0x10FE)
  entry_le := List.forall_mem_nil _
  depth_le := Nat.zero_le _

/-! ## What the host's moves keep -/

/-- What every step that answers a next state keeps, and the host's writes to the ports keep, holds after any moves of the host. -/
theorem foldl_move_induction {P : State → Prop} (hstep : ∀ s t, P s → step s = .next t → P t) (hkey : ∀ s b, P s → P (s.keyIn b))
    (hrandom : ∀ s bs, P s → P (s.supplyRandom bs)) {s : State} (hs : P s) (moves : List HostMove) :
    P (List.foldl State.move s moves) := by
  refine List.foldlRecOn moves _ hs fun u hu move _ => ?_
  cases move with
  | keyIn b => exact hkey u b hu
  | supplyRandom bs => exact hrandom u bs hu
  | step =>
    rcases step_next_or_fault u with ⟨t, ht⟩ | ⟨f, hf⟩
    · rw [State.move, stepPort_of_next ht]
      exact hstep u t hu ht
    · rwa [State.move, stepPort_of_fault hf]

theorem step_mem {s t : State} (h : step s = .next t) : t.mem = s.mem := by
  obtain ⟨w, i, -, -, -, hexec⟩ := step_eq_next h
  exact exec_mem hexec

theorem reachable_foldl_move {image : List Byte} {s : State} (h : Reachable image s) (moves : List HostMove) :
    Reachable image (List.foldl State.move s moves) := by
  obtain ⟨s₀, before, hconstruct, rfl⟩ := h
  exact ⟨s₀, before ++ moves, hconstruct, List.foldl_append.symm⟩

/-! ## The placed word -/

theorem tableWord_toNat (w : Word) : tableWord 16 w.toNat = w := by
  rw [tableWord, Nat.mod_eq_of_lt w.isLt, BitVec.ofNat_toNat, BitVec.setWidth_eq]

/-- The placed word lies below the end of memory. -/
theorem withFetchWord_pc_lt (s : State) (nbits w : Nat) : (s.withFetchWord nbits w).pc.toNat + 1 < 4096 := by
  rw [State.withFetchWord]
  dsimp only
  split
  · assumption
  · decide

theorem withFetchWord_mem (s : State) (nbits w : Nat) :
    (s.withFetchWord nbits w).mem = s.mem.load (s.withFetchWord nbits w).pc.toNat (bytesOfWord (tableWord nbits w)) :=
  rfl

theorem withFetchWord_wf {s : State} (nbits w : Nat) (hs : s.wf = true) : (s.withFetchWord nbits w).wf = true := by
  obtain ⟨hdepth, hmem⟩ := wf_iff.1 hs
  exact wf_iff.2 ⟨hdepth, wf_load _ _ _ (withFetchWord_pc_lt s nbits w) hmem⟩

/-- The word is placed where the next step fetches. -/
theorem wordAt_withFetchWord {s : State} (w : Word) (hs : s.wf = true) : (s.withFetchWord 16 w.toNat).WordAt w := by
  have hpc := withFetchWord_pc_lt s 16 w.toNat
  refine ⟨hpc, ?_⟩
  have hbyte (a : Nat) := byteAt_load (bytesOfWord w) (s.withFetchWord 16 w.toNat).pc.toNat s.mem a hpc (wf_iff.1 hs).2
  rw [withFetchWord_mem, tableWord_toNat, hbyte, hbyte, if_pos (Nat.le_refl _), if_pos (Nat.le_succ _), Nat.sub_self,
    Nat.add_sub_cancel_left, ← wordOfBytes_toNat]
  exact congrArg BitVec.toNat (wordOfBytes_hiByte_loByte w).symm

end Sys2Proof.Laws
end

section
/-! PROOFS. The statements about construction, the host's moves and every reachable state. -/

namespace Sys2Proof.Proofs
open Sys2Proof Sys2Proof.Machine Sys2Proof.Laws

/-- Settles O46: the state after reset piece by piece, and the construction from no image by its equation. -/
theorem resetStateIsTheTableOfSectionFourteen : Obligations.ResetStateIsTheTableOfSectionFourteen := by
  refine ⟨fun r => ?register, rfl, rfl, rfl, pixel_blank State.reset, rfl, fun _ => rfl, construct_of_le (Nat.zero_le _)⟩
  case register => rw [State.reg, State.reset, Fin.getElem_fin, Vector.getElem_replicate]

/-- Settles O47: the loaded memory is the image's bytes from 0x200 up and the blank memory elsewhere. -/
theorem constructLoadsTheImage : Obligations.ConstructLoadsTheImage := by
  intro image hle
  have hconstruct := construct_of_le hle
  have hbyte (a : Nat) := byteAt_load image Config.loadBase [] a (loadBase_add_le hle) rfl
  refine ⟨_, hconstruct, fun k b hk => ?inside, fun a ha => ?outside, rfl, construct_wf hconstruct⟩
  case inside =>
    refine (hbyte (0x200 + k)).trans ?_
    rw [Config.loadBase, if_pos (Nat.le_add_right _ _), Nat.add_sub_cancel_left, hk]
    rfl
  case outside =>
    refine (hbyte a).trans ?_
    rw [Config.loadBase]
    split
    · rw [List.getElem?_eq_none (by omega)]
      rfl
    · rfl

/-- Settles O48: the length check fails. -/
theorem constructRefusesALongImage : Obligations.ConstructRefusesALongImage :=
  fun _ => construct_of_lt

/-- Settles O50: construction sets memory alone, of which the ranges say nothing, and loads it in its canonical form. -/
theorem constructedStateIsInRange : Obligations.ConstructedStateIsInRange := by
  refine ⟨inRange_reset_with_mem [], rfl, fun image s h => ⟨?inRange, construct_wf h⟩⟩
  case inRange =>
    rw [(construct_eq_ok h).2]
    exact inRange_reset_with_mem _

/-- Settles O52: the ranges, well-formedness and the constructed memory hold at the start, and every move of the host keeps them. -/
theorem reachableStatesAreInRangeWithTheirImage : Obligations.ReachableStatesAreInRangeWithTheirImage := by
  rintro image _ ⟨s₀, moves, hconstruct, rfl⟩
  obtain ⟨hrange₀, hwf₀⟩ := constructedStateIsInRange.2.2 image s₀ hconstruct
  have hrange := foldl_move_induction (P := State.InRange) stepKeepsTheReachableRanges
    (fun _ _ h => ⟨h.index_le, h.pc_le, h.entry_le, h.depth_le⟩)
    (fun _ _ h => ⟨h.index_le, h.pc_le, h.entry_le, h.depth_le⟩) hrange₀ moves
  have hwf := foldl_move_induction (P := fun s => s.wf = true) stepKeepsTheStateWellFormed (fun _ _ h => h) (fun _ _ h => h) hwf₀ moves
  have hmem := foldl_move_induction (P := fun s => s.mem = s₀.mem) (fun _ _ hs ht => (step_mem ht).trans hs) (fun _ _ h => h)
    (fun _ _ h => h) rfl moves
  exact ⟨hrange, hwf, s₀, hconstruct, hmem⟩

/-- Settles O53: a step's answer is one of Halted and Fatal only, and Halted repeats. -/
theorem successfulEndIsFinal : Obligations.SuccessfulEndIsFinal := by
  rintro image s ⟨hreachable, hhalted⟩
  refine ⟨?noFailure, fun moves => ⟨reachable_foldl_move hreachable moves, (haltedStepRepeats s hhalted moves).1⟩⟩
  case noFailure =>
    rintro ⟨-, r, hfatal⟩
    rw [hhalted] at hfatal
    cases hfatal

/-- Settles O54: the placed word is the one at `PC`. -/
theorem stepRunsThePlacedWord : Obligations.StepRunsThePlacedWord := fun _ w _ hs hdecode =>
  ⟨stepRunsTheDecodedInstr _ w _ (wordAt_withFetchWord w hs) hdecode, withFetchWord_wf 16 w.toNat hs⟩

/-- Settles O55: each move writes its port, and each view reads the state. -/
theorem hostMovesTouchOnlyTheirPorts : Obligations.HostMovesTouchOnlyTheirPorts :=
  fun _ _ _ _ => ⟨rfl, rfl, rfl, rfl, rfl⟩

end Sys2Proof.Proofs
end
